-- ==== Sys2Proof/Word.lean ====
section
/-!
DEFINITION. The machine's one data type: the 16-bit Word (spec/00_scope.md R5, R7). Addition and subtraction of
`BitVec 16` wrap modulo 2^16, as R7 requires of every Word; nothing in the machine treats a Word as signed.
-/
namespace Sys2Proof

/-- A Word: an unsigned integer in 0 .. 65535. Registers, the program counter, memory cells, addresses and
instruction words are all Words (R5, R7). -/
abbrev Word := BitVec 16

end Sys2Proof
end

