-- ==== Sys2Proof/Config.lean ====
section
/-!
DEFINITION. The named parameters of the machine that the spec carries with two fully specified values
(spec/00_scope.md R5; spec/93_implementation_defined.md I1 and I9). The values the spec takes are chosen by
`Sys2Proof.Machine.configuration` in Machine/Ops.lean. The spec leaves no value free, so nothing here is opaque.
-/
namespace Sys2Proof

/-- `OOR_POLICY`: what an access at an address above 4095 does (spec/20_memory.md R52 to R54, decision D1). -/
inductive OorPolicy where
  /-- The address is reduced modulo 4096. The spec's value. -/
  | wrap
  /-- The step ends with `OutOfRangeAddress` and no other change (spec/60_exceptions.md R184). -/
  | reject
  deriving DecidableEq, Repr

/-- `BZ_SAMPLE`: which zero-flag value branch-if-zero tests (spec/43_control_transfer.md R152 to R154, decision D6). -/
inductive BzSample where
  /-- The value after the step's unconditional clear. The spec's value. -/
  | afterClear
  /-- The value the flag had when the step began. -/
  | beforeClear
  deriving DecidableEq, Repr

/-- A choice of the machine's parameters. -/
structure Config where
  oorPolicy : OorPolicy
  bzSample : BzSample
  /-- Whether the resolver's pointer read is performed for an instruction that discards `ea`. Under `wrap` the two
  values give the same machine (spec/20_memory.md R59, D14); under `reject` the spec leaves the choice open
  (spec/60_exceptions.md R184). -/
  readUnusedPointer : Bool
  deriving DecidableEq, Repr

end Sys2Proof
end

