-- ==== Sys2Proof/Syntax.lean ====
section
/-!
DEFINITION. Instructions: one constructor for each row of spec/opcode_table.json (spec/30_encoding.md R86), with the
operand fields of R81. Fields the spec calls ignored (R89) are kept as operands where the table gives them bits, so that
every word has a decoding that loses nothing but bits 15:12 (R82). DESIGN CHOICE (safe), log 19.
-/
namespace Sys2Proof

/-- The register-select bit of an instruction: 0 = index register, 1 = accumulator (R84). -/
inductive RegSel where
  | indexReg
  | accumulator
  deriving DecidableEq, Repr

/-- The addressing mode of an instruction (R85; spec/41_addressing_modes.md R130). -/
inductive AddrMode where
  | direct
  | indirect
  | indexed
  | indirectIndexed
  deriving DecidableEq, Repr

/-- The decoder's raw fields of an instruction word (R81): `op = w[11:9]`, `rs = w[8]`, `mode = w[7:6]` (the same bits
as `xop`), `lit = w[5:0]`. -/
structure Fields where
  op : BitVec 3
  rs : BitVec 1
  mode : BitVec 2
  lit : BitVec 6
  deriving DecidableEq, Repr

/-- The ten instructions and the reserved encoding (R86). -/
inductive Instr where
  /-- op 0 (R140). -/
  | store (rs : RegSel) (mode : AddrMode) (lit : BitVec 6)
  /-- op 1 (R141). -/
  | load (rs : RegSel) (mode : AddrMode) (lit : BitVec 6)
  /-- op 2 (R142). -/
  | add (rs : RegSel) (mode : AddrMode) (lit : BitVec 6)
  /-- op 3 (R150); `rs` is ignored. -/
  | branch (rs : RegSel) (mode : AddrMode) (lit : BitVec 6)
  /-- op 4 (R152); `rs` is ignored. -/
  | branchIfZero (rs : RegSel) (mode : AddrMode) (lit : BitVec 6)
  /-- op 5 (R160); `mode` and `lit` are ignored. -/
  | clear (rs : RegSel) (mode : AddrMode) (lit : BitVec 6)
  /-- op 6 (R161); `mode` and `lit` are ignored. -/
  | decrement (rs : RegSel) (mode : AddrMode) (lit : BitVec 6)
  /-- op 7, xop 0 (R170); `rs` and `lit` are ignored. -/
  | halt (rs : RegSel) (lit : BitVec 6)
  /-- op 7, xop 1 (R172); `rs` and `lit` are ignored. -/
  | enableInterrupts (rs : RegSel) (lit : BitVec 6)
  /-- op 7, xop 2 (R173); `rs` and `lit` are ignored. -/
  | disableInterrupts (rs : RegSel) (lit : BitVec 6)
  /-- op 7, xop 3: the one reserved encoding (R90). It keeps the raw word, bits 15:12 among it, because the error latch
  records it (spec/60_exceptions.md R181). -/
  | reserved (w : Word)
  deriving DecidableEq, Repr

/-- The eleven outputs of the dispatch tables (spec/40_blocks_and_step.md R104). -/
inductive Sel where
  | STORE | LOAD | ADD | BRANCH | BRANCH_IF_ZERO | CLEAR | DECREMENT
  | HALT | ENABLE_INT | DISABLE_INT | RESERVED
  deriving DecidableEq, Repr

/-- One row of the opcode map (R86): a word `w` selects the row with `w AND mask == pattern`. -/
structure OpcodeRow where
  sel : Sel
  pattern : Word
  mask : Word
  deriving DecidableEq, Repr

end Sys2Proof
end

