-- ==== Sys2Proof/WellFormed.lean ====
section
/-!
DEFINITION. Which terms of `Instr` are instructions of the machine. Every operand of the ten instructions is legal at
every value (spec/42_memory_reference.md R144, spec/44_register_ops.md R163), so the one check is on `reserved`: the word
it carries must be a reserved encoding (spec/30_encoding.md R90: `(w AND 0x0EC0) == 0x0EC0`).
-/
namespace Sys2Proof

/-- The instruction is one the decoder can give. -/
def Instr.wf : Instr → Bool
  | .store _ _ _ => true
  | .load _ _ _ => true
  | .add _ _ _ => true
  | .branch _ _ _ => true
  | .branchIfZero _ _ _ => true
  | .clear _ _ _ => true
  | .decrement _ _ _ => true
  | .halt _ _ => true
  | .enableInterrupts _ _ => true
  | .disableInterrupts _ _ => true
  | .reserved w => w &&& 0x0EC0#16 == 0x0EC0#16

end Sys2Proof
end

