-- ==== Sys2Proof/Decode.lean ====
section
/-!
DEFINITION. The decoder and the encoder (spec/30_encoding.md R80 to R91). Every instruction is one Word, so the decoder
takes one Word; it is total on all 65536 of them (R86), and the one reserved encoding comes out under a name of its own,
`Instr.reserved` (R90). After the decoder: the encoder, from the same table.
-/
namespace Sys2Proof

/-- `zext_16` (spec/00_scope.md R7): widen an unsigned value to a Word by zero bits on the left. -/
def zext16 {n : Nat} (v : BitVec n) : Word := v.setWidth 16

/-- Field extraction (R81). Bits 15:12 go nowhere (R82). -/
def fields (w : Word) : Fields where
  op := w.extractLsb' 9 3
  rs := w.extractLsb' 8 1
  mode := w.extractLsb' 6 2
  lit := w.extractLsb' 0 6

/-- Register-select: 0 = index register, 1 = accumulator (R84). -/
def RegSel.ofBit (b : BitVec 1) : RegSel := if b = 1#1 then .accumulator else .indexReg

/-- Addressing mode: 0 direct, 1 indirect, 2 indexed, 3 indirect-indexed (R85). -/
def AddrMode.ofBits (b : BitVec 2) : AddrMode :=
  match b.toNat with
  | 0 => .direct
  | 1 => .indirect
  | 2 => .indexed
  | _ => .indirectIndexed

/-- The secondary table, indexed by `xop = w[7:6]` when `op = 7` (R86, R91). The fourth value is the reserved encoding,
which keeps the raw word `w` (R90). -/
def decodeExtended (f : Fields) (w : Word) : Instr :=
  match f.mode.toNat with
  | 0 => .halt (RegSel.ofBit f.rs) f.lit
  | 1 => .enableInterrupts (RegSel.ofBit f.rs) f.lit
  | 2 => .disableInterrupts (RegSel.ofBit f.rs) f.lit
  | _ => .reserved w

/-- The primary table, indexed by `op`; value 7 selects the secondary table (R86, R91). -/
def decodePrimary (f : Fields) (w : Word) : Instr :=
  match f.op.toNat with
  | 0 => .store (RegSel.ofBit f.rs) (AddrMode.ofBits f.mode) f.lit
  | 1 => .load (RegSel.ofBit f.rs) (AddrMode.ofBits f.mode) f.lit
  | 2 => .add (RegSel.ofBit f.rs) (AddrMode.ofBits f.mode) f.lit
  | 3 => .branch (RegSel.ofBit f.rs) (AddrMode.ofBits f.mode) f.lit
  | 4 => .branchIfZero (RegSel.ofBit f.rs) (AddrMode.ofBits f.mode) f.lit
  | 5 => .clear (RegSel.ofBit f.rs) (AddrMode.ofBits f.mode) f.lit
  | 6 => .decrement (RegSel.ofBit f.rs) (AddrMode.ofBits f.mode) f.lit
  | _ => decodeExtended f w

/-- The decoder: field extraction, then the table lookup (R81, R86). -/
def decode (w : Word) : Instr := decodePrimary (fields w) w

/-- The instruction a word of the opcode table stands for. The table gives every row 16 bits, one Word; a number that
does not fit one Word is refused. -/
def decodeTableWord (nbits w : Nat) : Option Instr :=
  if nbits ≤ 16 ∧ w < 2 ^ 16 then some (decode (BitVec.ofNat 16 w)) else none

/-- The bit of a register-select (R84). -/
def RegSel.toBit : RegSel → BitVec 1
  | .indexReg => 0#1
  | .accumulator => 1#1

/-- The two bits of an addressing mode (R85). -/
def AddrMode.toBits : AddrMode → BitVec 2
  | .direct => 0#2
  | .indirect => 1#2
  | .indexed => 2#2
  | .indirectIndexed => 3#2

/-- R87: `encode(op, rs, mode, lit) = (op << 9) OR (rs << 8) OR (mode << 6) OR lit`, bits 15:12 zero. -/
def encodeFields (f : Fields) : Word :=
  (zext16 f.op <<< 9) ||| (zext16 f.rs <<< 8) ||| (zext16 f.mode <<< 6) ||| zext16 f.lit

/-- The word of an instruction (R87, opcode values of R86). Bits 15:12 are zero, except in the reserved encoding, which
is its own word. -/
def encode : Instr → Word
  | .store r m l => encodeFields ⟨0, r.toBit, m.toBits, l⟩
  | .load r m l => encodeFields ⟨1, r.toBit, m.toBits, l⟩
  | .add r m l => encodeFields ⟨2, r.toBit, m.toBits, l⟩
  | .branch r m l => encodeFields ⟨3, r.toBit, m.toBits, l⟩
  | .branchIfZero r m l => encodeFields ⟨4, r.toBit, m.toBits, l⟩
  | .clear r m l => encodeFields ⟨5, r.toBit, m.toBits, l⟩
  | .decrement r m l => encodeFields ⟨6, r.toBit, m.toBits, l⟩
  | .halt r l => encodeFields ⟨7, r.toBit, 0, l⟩
  | .enableInterrupts r l => encodeFields ⟨7, r.toBit, 1, l⟩
  | .disableInterrupts r l => encodeFields ⟨7, r.toBit, 2, l⟩
  | .reserved w => w

/-- Which entry of the dispatch tables an instruction is (spec/40_blocks_and_step.md R104). -/
def Instr.sel : Instr → Sel
  | .store _ _ _ => .STORE
  | .load _ _ _ => .LOAD
  | .add _ _ _ => .ADD
  | .branch _ _ _ => .BRANCH
  | .branchIfZero _ _ _ => .BRANCH_IF_ZERO
  | .clear _ _ _ => .CLEAR
  | .decrement _ _ _ => .DECREMENT
  | .halt _ _ => .HALT
  | .enableInterrupts _ _ => .ENABLE_INT
  | .disableInterrupts _ _ => .DISABLE_INT
  | .reserved _ => .RESERVED

/-- The opcode map of R86, its match and mask columns row by row. -/
def opcodeTable : List OpcodeRow :=
  [ ⟨.STORE, 0x0000, 0x0E00⟩,
    ⟨.LOAD, 0x0200, 0x0E00⟩,
    ⟨.ADD, 0x0400, 0x0E00⟩,
    ⟨.BRANCH, 0x0600, 0x0E00⟩,
    ⟨.BRANCH_IF_ZERO, 0x0800, 0x0E00⟩,
    ⟨.CLEAR, 0x0A00, 0x0E00⟩,
    ⟨.DECREMENT, 0x0C00, 0x0E00⟩,
    ⟨.HALT, 0x0E00, 0x0EC0⟩,
    ⟨.ENABLE_INT, 0x0E40, 0x0EC0⟩,
    ⟨.DISABLE_INT, 0x0E80, 0x0EC0⟩,
    ⟨.RESERVED, 0x0EC0, 0x0EC0⟩ ]

/-- The word selects the row (R86). -/
def OpcodeRow.selects (row : OpcodeRow) (w : Word) : Bool := w &&& row.mask == row.pattern

end Sys2Proof
end

