-- ==== Sys2Proof/Machine/State.lean ====
section
/-!
DEFINITION. The architectural state (spec/10_state.md R20) and its reset value (R40). State holds the spec's tuple and
nothing else; the InstructionContext, the phase of a step and the like are not state (R38, R39).
-/
namespace Sys2Proof.Machine

/-- Reasons a step stops with a fault. There are none: the step is a total function of the State (spec/
40_blocks_and_step.md R120). The one error the core raises, DecodeError, is a next state whose error latch is set
(spec/60_exceptions.md R181; log 9), so the type has no constructor. -/
inductive Fault where
  deriving DecidableEq, Repr

/-- Reasons an instruction has no meaning. -/
inductive Refusal where
  /-- Raised by an arm of `exec` whose instruction has no meaning yet. Safe: the machine stops where the hardware goes
  on. No arm raises it in this model. -/
  | notModelled (mnemonic : String)
  deriving DecidableEq, Repr

/-- What the error latch records: the kind of the error and the context the document requires, the pc and the raw
instruction word (spec/60_exceptions.md R180, R181). -/
inductive ErrorReport where
  /-- The fetched word `word` at address `pcAtFault` is the reserved encoding (R181). -/
  | decodeError (pcAtFault : Word) (word : Word)
  /-- An access at `addr`, above 4095, under the alternative policy `OOR_POLICY = reject` (R184). `word` is absent when
  the access that fails is the fetch itself (log 8). Never raised under the spec's policy. -/
  | outOfRangeAddress (pcAtFault : Word) (word : Option Word) (addr : Word)
  deriving DecidableEq, Repr

/-- One listed memory cell: a word address and the 16-bit Word it holds. The cell is a Word and not a byte because the
machine has no bytes (spec/20_memory.md R50, R56; log 1). -/
abbrev MemCell := Nat × Word

/-- Memory as the list of the cells that do not hold what an unlisted cell reads as, by rising address
(`Memory.wf` in Machine/Ops.lean). -/
abbrev Memory := List MemCell

/-- The architectural state, in the order and under the names of R20. -/
structure State where
  /-- Index register, `x[0]` (R21). -/
  X : Word
  /-- Accumulator, `x[1]` (R21). -/
  A : Word
  /-- Program counter (R25 to R27). -/
  pc : Word
  /-- Zero flag (R29). -/
  Z : Bool
  /-- Negative flag: written and read by nothing (R30). -/
  N : Bool
  /-- Carry flag: written and read by nothing (R31). -/
  C : Bool
  /-- Interrupt-enable flag: read by nothing (R32). -/
  IE : Bool
  /-- Halt flag (R33). -/
  HALT : Bool
  /-- Memory, 4096 Words (R36). -/
  M : Memory
  /-- Error latch (R35). -/
  ERR : Option ErrorReport
  deriving DecidableEq, Repr

/-- Every piece of state at its reset value (R40): zero, and the latch empty. -/
def State.reset : State where
  X := 0
  A := 0
  pc := 0
  Z := false
  N := false
  C := false
  IE := false
  HALT := false
  M := []
  ERR := none

/-- What one step, or one instruction, answers. -/
abbrev Result := Host.Outcome State Fault Refusal

end Sys2Proof.Machine
end

