-- ==== Sys2Proof/Machine/Flags.lean ====
section
/-!
DEFINITION. The flags: every flag computation of spec/10_state.md R28 to R34 and spec/40_blocks_and_step.md R106. The five
flags are separate bits (R28); `N` and `C` have no operation because nothing writes them (R30, R31).
-/
namespace Sys2Proof.Machine

/-- The zero condition of a result, `v == 0` (R29). -/
def isZero (v : Word) : Bool := v == 0#16

/-- Write the zero flag. -/
def State.setZ (s : State) (b : Bool) : State := { s with Z := b }

/-- The unconditional clear that begins the execute phase of every instruction (R29; spec/40_blocks_and_step.md R115). -/
def State.clearZ (s : State) : State := s.setZ false

/-- Write the interrupt-enable flag (R32). -/
def State.setIE (s : State) (b : Bool) : State := { s with IE := b }

/-- Write the halt flag (R33). -/
def State.setHALT (s : State) (b : Bool) : State := { s with HALT := b }

end Sys2Proof.Machine
end

