-- ==== Sys2Proof/Machine/Ops.lean ====
section
/-!
DEFINITION. The named operations the meanings share: memory and its two access primitives (spec/20_memory.md), the
program counter, taking an error (spec/60_exceptions.md R181, R184), the configuration, and the frame of one step around
an instruction (spec/40_blocks_and_step.md R115, R121). There is no return from an error (R192), so there is no operation
for one; only reset leaves the stopped condition (R122).
-/
namespace Sys2Proof.Machine

/-- The values of the machine's parameters that the spec takes: wrap (D1, log 2) and after_clear (D6, log 7).
`readUnusedPointer` makes no difference under wrap (D14); true is the document's own wording, "still computed"
(spec/20_memory.md R59). DESIGN CHOICE of the spec. -/
def configuration : Config where
  oorPolicy := .wrap
  bzSample := .afterClear
  readUnusedPointer := true

/-! ### Memory -/

/-- What an unlisted memory cell reads as: the reset content of every cell (spec/10_state.md R40). -/
def unlistedWord : Word := 0

/-- The content of cell `a`. -/
def Memory.read : Memory → Nat → Word
  | [], _ => unlistedWord
  | (k, v) :: rest, a => if k = a then v else Memory.read rest a

/-- `m` without an entry for cell `a`. -/
def Memory.erase (m : Memory) (a : Nat) : Memory := List.filter (fun c => c.1 != a) m

/-- `m` with an entry placed before the first entry of a higher address. -/
def Memory.insert : Memory → Nat → Word → Memory
  | [], a, v => [(a, v)]
  | (k, u) :: rest, a, v => if a < k then (a, v) :: (k, u) :: rest else (k, u) :: Memory.insert rest a v

/-- `m` with cell `a` holding `v`, in canonical form: no entry when `v` is what an unlisted cell reads as. -/
def Memory.write (m : Memory) (a : Nat) (v : Word) : Memory :=
  if v = unlistedWord then m.erase a else (m.erase a).insert a v

/-- The canonical form from address `lo` on: addresses strictly rising, below 4096 (spec/20_memory.md R50), and no entry
equal to what an unlisted cell reads as. -/
def Memory.wfFrom (lo : Nat) : Memory → Bool
  | [] => true
  | (k, v) :: rest => decide (lo ≤ k) && decide (k < 4096) && v != unlistedWord && Memory.wfFrom (k + 1) rest

/-- The canonical form of memory: equal memories are equal lists. -/
def Memory.wf (m : Memory) : Bool := Memory.wfFrom 0 m

/-- The physical index of a 16-bit address: `addr mod 4096`, bits 15:12 dropped (spec/20_memory.md R52, R53). -/
def physIndex (addr : Word) : Nat := addr.toNat % 4096

/-- The cell an access at `addr` reaches, or the offending address where the policy rejects it (R52, R53, R54). -/
def checkAddr (cfg : Config) (addr : Word) : Except Word Nat :=
  match cfg.oorPolicy with
  | .wrap => .ok (physIndex addr)
  | .reject => if addr.toNat < 4096 then .ok addr.toNat else .error addr

/-- `MemRead(addr, 1)` (R52). No side effect. -/
def memRead (cfg : Config) (m : Memory) (addr : Word) : Except Word Word :=
  match checkAddr cfg addr with
  | .ok a => .ok (m.read a)
  | .error bad => .error bad

/-- `MemWrite(addr, 1, v)` (R53). Changes no other cell. -/
def memWrite (cfg : Config) (m : Memory) (addr v : Word) : Except Word Memory :=
  match checkAddr cfg addr with
  | .ok a => .ok (m.write a v)
  | .error bad => .error bad

/-- Replace the memory. -/
def State.setM (s : State) (m : Memory) : State := { s with M := m }

/-! ### The program counter -/

/-- Write the program counter, all 16 bits (spec/10_state.md R27). -/
def State.setPc (s : State) (target : Word) : State := { s with pc := target }

/-- `pc <- (pc + 1) mod 2^16` (R26, R27). -/
def State.advance (s : State) : State := s.setPc (s.pc + 1)

/-! ### Errors -/

/-- Taking an error: the latch records the report and no other state changes (spec/60_exceptions.md R181, R184, D4,
log 5). There is no handler, no saved register and no mode (R191). -/
def State.takeError (s : State) (e : ErrorReport) : State := { s with ERR := some e }

/-- The stopped condition: halted, or in error (spec/00_scope.md glossary; spec/40_blocks_and_step.md R110). -/
def State.stopped (s : State) : Bool := s.HALT || s.ERR.isSome

/-- The word in the cell that `pc` names: the raw word of the instruction being executed (spec/40_blocks_and_step.md
R101). -/
def State.wordAtPc (s : State) : Word := s.M.read (physIndex s.pc)

/-- An access of the instruction at `pc`, after its fetch, was rejected at `addr` (R184). -/
def State.rejectAccess (s : State) (addr : Word) : State :=
  s.takeError (.outOfRangeAddress s.pc (some s.wordAtPc) addr)

/-- Run `k` on what an access gives, or end the step with the rejected address (R184). -/
def State.orReject {α : Type} (s : State) (access : Except Word α) (k : α → State) : State :=
  match access with
  | .ok v => k v
  | .error addr => s.rejectAccess addr

/-! ### One step around an instruction -/

/-- One step request (spec/40_blocks_and_step.md R115, R121): a stopped core changes nothing; else the word at `pc` is
fetched and decoded, and `run` executes it. Under `reject` an out-of-range fetch ends the step before any word is read
(spec/60_exceptions.md R184, R189). -/
def cycle (cfg : Config) (run : Instr → State → Result) (s : State) : Result :=
  if s.stopped then .next s
  else
    match memRead cfg s.M s.pc with
    | .ok w => run (decode w) s
    | .error addr => .next (s.takeError (.outOfRangeAddress s.pc none addr))

/-- `s` with the word `w` in the cell the next fetch reads. -/
def State.placeWord (s : State) (w : Word) : State := s.setM (s.M.write (physIndex s.pc) w)

end Sys2Proof.Machine
end

