-- ==== Sys2Proof/Machine/Operands.lean ====
section
/-!
DEFINITION. Every operand form: the selected register (spec/10_state.md R21, R23) and the effective address under the
four addressing modes (spec/41_addressing_modes.md R130 to R134).
-/
namespace Sys2Proof.Machine

/-- `x[rs]` (R21). -/
def State.readReg (s : State) : RegSel → Word
  | .indexReg => s.X
  | .accumulator => s.A

/-- `x[rs] <- v` (R21); the other register keeps its value (R22). -/
def State.writeReg (s : State) (r : RegSel) (v : Word) : State :=
  match r with
  | .indexReg => { s with X := v }
  | .accumulator => { s with A := v }

/-- The resolver (R130): the effective address from the mode, the literal, the index register `x` and the memory. It
writes nothing. The sum is wrapped to 16 bits before the lookup (R134). -/
def resolve (cfg : Config) (m : Memory) (x : Word) (mode : AddrMode) (lit : BitVec 6) : Except Word Word :=
  match mode with
  | .direct => .ok (zext16 lit)
  | .indirect => memRead cfg m (zext16 lit)
  | .indexed => .ok (zext16 lit + x)
  | .indirectIndexed => memRead cfg m (zext16 lit + x)

/-- Run `k` on the effective address of the instruction executing in `s` (R130). -/
def State.withEa (s : State) (cfg : Config) (mode : AddrMode) (lit : BitVec 6) (k : Word → State) : State :=
  s.orReject (resolve cfg s.M s.X mode lit) k

/-- The effective address is computed and discarded (spec/20_memory.md R59, spec/41_addressing_modes.md R135): only
under `reject` can this be seen, and there the spec leaves it open whether the read is performed (R184). -/
def State.discardEa (s : State) (cfg : Config) (mode : AddrMode) (lit : BitVec 6) (k : State) : State :=
  if cfg.readUnusedPointer then s.withEa cfg mode lit (fun _ => k) else k

/-- The effective address under the spec's policy wrap: the four cases of R130 with `MemRead(addr, 1) = M[addr mod
4096]`. The meanings go through `resolve`; this is the form that statements use, and Laws/Ops.lean proves the two
equal. -/
def State.effAddr (s : State) (mode : AddrMode) (lit : BitVec 6) : Word :=
  match mode with
  | .direct => zext16 lit
  | .indirect => s.M.read (physIndex (zext16 lit))
  | .indexed => zext16 lit + s.X
  | .indirectIndexed => s.M.read (physIndex (zext16 lit + s.X))

end Sys2Proof.Machine
end

