-- ==== Sys2Proof/Machine/ControlTransfer.lean ====
section
/-!
DEFINITION. Branch and branch-if-zero (spec/43_control_transfer.md R150 to R155). The register-select bit is ignored by
both.
-/
namespace Sys2Proof.Machine

/-- The zero value that branch-if-zero tests (R152 to R154; spec/40_blocks_and_step.md R117): the flag after the
unconditional clear, or the flag with which the step began. -/
def zeroTest (cfg : Config) (s : State) : Bool :=
  match cfg.bzSample with
  | .afterClear => s.clearZ.Z
  | .beforeClear => s.Z

/-- branch (R150): `Z <- 0; pc <- ea`, all 16 bits of `ea`. -/
def branchWith (cfg : Config) (_rs : RegSel) (mode : AddrMode) (lit : BitVec 6) (s : State) : State :=
  s.withEa cfg mode lit fun ea => s.clearZ.setPc ea

/-- branch-if-zero (R152, R154): `Z <- 0`, then `pc <- ea` if the tested zero value is 1, else `pc <- pc + 1`. -/
def branchIfZeroWith (cfg : Config) (_rs : RegSel) (mode : AddrMode) (lit : BitVec 6) (s : State) : State :=
  s.withEa cfg mode lit fun ea => if zeroTest cfg s then s.clearZ.setPc ea else s.clearZ.advance

/-- branch under the spec's configuration. -/
def execBranch (rs : RegSel) (mode : AddrMode) (lit : BitVec 6) (s : State) : Result :=
  .next (branchWith configuration rs mode lit s)

/-- branch-if-zero under the spec's configuration, in which the tested value is the cleared flag (R153, log 7). -/
def execBranchIfZero (rs : RegSel) (mode : AddrMode) (lit : BitVec 6) (s : State) : Result :=
  .next (branchIfZeroWith configuration rs mode lit s)

end Sys2Proof.Machine
end

