-- ==== Sys2Proof/Machine/Extended.lean ====
section
/-!
DEFINITION. The secondary table: halt, enable-interrupts, disable-interrupts (spec/45_extended.md R170 to R175), and the
reserved encoding, which raises DecodeError (spec/60_exceptions.md R181). The two `xop` bits are, for the resolver, an
addressing mode whose effective address is discarded (spec/30_encoding.md R91, spec/45_extended.md R174).
-/
namespace Sys2Proof.Machine

/-- halt (R170): `Z <- 0; HALT <- 1`; `pc` stays at this instruction. -/
def haltWith (cfg : Config) (_rs : RegSel) (lit : BitVec 6) (s : State) : State :=
  s.discardEa cfg .direct lit (s.clearZ.setHALT true)

/-- enable-interrupts (R172): `Z <- 0; IE <- 1; pc <- pc + 1`. -/
def enableInterruptsWith (cfg : Config) (_rs : RegSel) (lit : BitVec 6) (s : State) : State :=
  s.discardEa cfg .indirect lit (s.clearZ.setIE true).advance

/-- disable-interrupts (R173): `Z <- 0; IE <- 0; pc <- pc + 1`. -/
def disableInterruptsWith (cfg : Config) (_rs : RegSel) (lit : BitVec 6) (s : State) : State :=
  s.discardEa cfg .indexed lit (s.clearZ.setIE false).advance

/-- The reserved encoding (R181): `ERR <- DecodeError(pc, w)`. The zero flag is not cleared and `pc` does not move
(spec/40_blocks_and_step.md R116, D4, log 5). -/
def reservedWith (cfg : Config) (w : Word) (s : State) : State :=
  s.discardEa cfg .indirectIndexed (fields w).lit (s.takeError (.decodeError s.pc w))

/-- halt under the spec's configuration. -/
def execHalt (rs : RegSel) (lit : BitVec 6) (s : State) : Result :=
  .next (haltWith configuration rs lit s)

/-- enable-interrupts under the spec's configuration. -/
def execEnableInterrupts (rs : RegSel) (lit : BitVec 6) (s : State) : Result :=
  .next (enableInterruptsWith configuration rs lit s)

/-- disable-interrupts under the spec's configuration. -/
def execDisableInterrupts (rs : RegSel) (lit : BitVec 6) (s : State) : Result :=
  .next (disableInterruptsWith configuration rs lit s)

/-- The reserved encoding under the spec's configuration. -/
def execReserved (w : Word) (s : State) : Result :=
  .next (reservedWith configuration w s)

end Sys2Proof.Machine
end

