-- ==== Sys2Proof/Machine/MemoryReference.lean ====
section
/-!
DEFINITION. Store, load and add (spec/42_memory_reference.md R140 to R144). Each meaning is written once, over a
configuration; `exec…` takes the spec's configuration.
-/
namespace Sys2Proof.Machine

/-- store (R140): `Z <- 0; MemWrite(ea, 1, x[rs]); pc <- pc + 1`. -/
def storeWith (cfg : Config) (rs : RegSel) (mode : AddrMode) (lit : BitVec 6) (s : State) : State :=
  s.withEa cfg mode lit fun ea =>
    s.orReject (memWrite cfg s.M ea (s.readReg rs)) fun m => (s.clearZ.setM m).advance

/-- load (R141): `v = MemRead(ea, 1); x[rs] <- v; Z <- (v == 0); pc <- pc + 1`. -/
def loadWith (cfg : Config) (rs : RegSel) (mode : AddrMode) (lit : BitVec 6) (s : State) : State :=
  s.withEa cfg mode lit fun ea =>
    s.orReject (memRead cfg s.M ea) fun v => ((s.clearZ.writeReg rs v).setZ (isZero v)).advance

/-- add (R142): `v = x[rs] + MemRead(ea, 1); x[rs] <- v; Z <- (v == 0); pc <- pc + 1`. -/
def addWith (cfg : Config) (rs : RegSel) (mode : AddrMode) (lit : BitVec 6) (s : State) : State :=
  s.withEa cfg mode lit fun ea =>
    s.orReject (memRead cfg s.M ea) fun b =>
      ((s.clearZ.writeReg rs (s.readReg rs + b)).setZ (isZero (s.readReg rs + b))).advance

/-- store under the spec's configuration. -/
def execStore (rs : RegSel) (mode : AddrMode) (lit : BitVec 6) (s : State) : Result :=
  .next (storeWith configuration rs mode lit s)

/-- load under the spec's configuration. -/
def execLoad (rs : RegSel) (mode : AddrMode) (lit : BitVec 6) (s : State) : Result :=
  .next (loadWith configuration rs mode lit s)

/-- add under the spec's configuration. -/
def execAdd (rs : RegSel) (mode : AddrMode) (lit : BitVec 6) (s : State) : Result :=
  .next (addWith configuration rs mode lit s)

end Sys2Proof.Machine
end

