-- ==== Sys2Proof/Machine/RegisterOps.lean ====
section
/-!
DEFINITION. Clear and decrement (spec/44_register_ops.md R160 to R163). The mode and the literal are ignored; the
effective address is computed and discarded.
-/
namespace Sys2Proof.Machine

/-- clear (R160): `x[rs] <- 0; Z <- 1; pc <- pc + 1`. -/
def clearWith (cfg : Config) (rs : RegSel) (mode : AddrMode) (lit : BitVec 6) (s : State) : State :=
  s.discardEa cfg mode lit ((s.clearZ.writeReg rs 0).setZ true).advance

/-- decrement (R161): `v = x[rs] - 1; x[rs] <- v; Z <- (v == 0); pc <- pc + 1`. -/
def decrementWith (cfg : Config) (rs : RegSel) (mode : AddrMode) (lit : BitVec 6) (s : State) : State :=
  s.discardEa cfg mode lit
    ((s.clearZ.writeReg rs (s.readReg rs - 1)).setZ (isZero (s.readReg rs - 1))).advance

/-- clear under the spec's configuration. -/
def execClear (rs : RegSel) (mode : AddrMode) (lit : BitVec 6) (s : State) : Result :=
  .next (clearWith configuration rs mode lit s)

/-- decrement under the spec's configuration. -/
def execDecrement (rs : RegSel) (mode : AddrMode) (lit : BitVec 6) (s : State) : Result :=
  .next (decrementWith configuration rs mode lit s)

end Sys2Proof.Machine
end

