-- ==== Sys2Proof/Machine/Dispatch.lean ====
section
/-!
DEFINITION. The dispatch of an instruction to its meaning (spec/40_blocks_and_step.md R104, R115).
-/
namespace Sys2Proof.Machine

def exec (i : Instr) (s : State) : Host.Outcome State Fault Refusal :=
  match i with
  | .store rs mode lit => Sys2Proof.Machine.execStore rs mode lit s
  | .load rs mode lit => Sys2Proof.Machine.execLoad rs mode lit s
  | .add rs mode lit => Sys2Proof.Machine.execAdd rs mode lit s
  | .branch rs mode lit => Sys2Proof.Machine.execBranch rs mode lit s
  | .branchIfZero rs mode lit => Sys2Proof.Machine.execBranchIfZero rs mode lit s
  | .clear rs mode lit => Sys2Proof.Machine.execClear rs mode lit s
  | .decrement rs mode lit => Sys2Proof.Machine.execDecrement rs mode lit s
  | .halt rs lit => Sys2Proof.Machine.execHalt rs lit s
  | .enableInterrupts rs lit => Sys2Proof.Machine.execEnableInterrupts rs lit s
  | .disableInterrupts rs lit => Sys2Proof.Machine.execDisableInterrupts rs lit s
  | .reserved w => Sys2Proof.Machine.execReserved w s

end Sys2Proof.Machine
end

