-- ==== Sys2Proof/Machine/Step.lean ====
section
/-!
DEFINITION. The step function (spec/40_blocks_and_step.md R115, R119 to R121), and where a program's next word is placed.
-/
namespace Sys2Proof.Machine

/-- One step request under the spec's configuration. -/
def step (s : State) : Host.Outcome State Fault Refusal := cycle configuration exec s

/-- `s` with the instruction word `w` in the cell that the next step fetches, `M[pc mod 4096]`. An instruction is one
Word whatever `nbits` is (spec/30_encoding.md R80). This stands for the host's load (log 12). -/
def State.withFetchWord (s : State) (_nbits w : Nat) : State := s.placeWord (BitVec.ofNat 16 w)

end Sys2Proof.Machine
end

