-- ==== Sys2Proof/Machine/Alternatives.lean ====
section
/-!
DEFINITION. The machine at every value of the spec's named parameters (spec/00_scope.md R5): the alternatives
`BZ_SAMPLE = before_clear` (spec/43_control_transfer.md R154) and `OOR_POLICY = reject` (spec/60_exceptions.md R184, R189)
beside the spec's own values. `step` is `stepWith configuration`.
-/
namespace Sys2Proof.Machine

/-- Execute an instruction at the parameters `cfg`. -/
def execWith (cfg : Config) (i : Instr) (s : State) : State :=
  match i with
  | .store rs mode lit => storeWith cfg rs mode lit s
  | .load rs mode lit => loadWith cfg rs mode lit s
  | .add rs mode lit => addWith cfg rs mode lit s
  | .branch rs mode lit => branchWith cfg rs mode lit s
  | .branchIfZero rs mode lit => branchIfZeroWith cfg rs mode lit s
  | .clear rs mode lit => clearWith cfg rs mode lit s
  | .decrement rs mode lit => decrementWith cfg rs mode lit s
  | .halt rs lit => haltWith cfg rs lit s
  | .enableInterrupts rs lit => enableInterruptsWith cfg rs lit s
  | .disableInterrupts rs lit => disableInterruptsWith cfg rs lit s
  | .reserved w => reservedWith cfg w s

/-- One step request at the parameters `cfg`. -/
def stepWith (cfg : Config) (s : State) : Result := cycle cfg (fun i t => .next (execWith cfg i t)) s

end Sys2Proof.Machine
end

