-- ==== Sys2Proof/Machine/Units.lean ====
section
/-!
DEFINITION. The eight units of spec/40_blocks_and_step.md (R100 to R110) as functions from their inputs to their outputs,
and their composition (R109). The units are the spec's own partition (decision D7, log 17); rule R115, which `step`
models, defines the behaviour, and that the composition equals it is an obligation. The units stand under
`OOR_POLICY = wrap`, as the spec writes them.
-/
namespace Sys2Proof.Machine.Units

/-- `load_store_unit`, a read access: `rdata = M[addr[11:0]]` (R107). -/
def loadStoreRead (m : Memory) (addr : Word) : Word := m.read (addr.extractLsb' 0 12).toNat

/-- `load_store_unit`, the write port: `if wr then M[addr[11:0]] <- wdata` (R107). -/
def loadStoreWrite (m : Memory) (wr : Bool) (addr wdata : Word) : Memory :=
  if wr then m.write (addr.extractLsb' 0 12).toNat wdata else m

/-- `fetch_unit`: `ir = MemRead(pc, 1)` (R101). -/
def fetchUnit (m : Memory) (pc : Word) : Word := loadStoreRead m pc

/-- The outputs of `decoder` (R102). -/
structure DecoderOut where
  op : BitVec 3
  rs : BitVec 1
  mode : BitVec 2
  lit : BitVec 6
  ext : Bool
  xop : BitVec 2
  deriving DecidableEq, Repr

/-- `decoder` (R102): bits 15:12 go nowhere. -/
def decoder (ir : Word) : DecoderOut where
  op := ir.extractLsb' 9 3
  rs := ir.extractLsb' 8 1
  mode := ir.extractLsb' 6 2
  lit := ir.extractLsb' 0 6
  ext := ir.extractLsb' 9 3 == 7
  xop := ir.extractLsb' 6 2

/-- `addressing_mode_resolver` (R103, R130). -/
def resolver (m : Memory) (mode : BitVec 2) (lit : BitVec 6) (xval : Word) : Word :=
  if mode = 0 then zext16 lit
  else if mode = 1 then loadStoreRead m (zext16 lit)
  else if mode = 2 then zext16 lit + xval
  else loadStoreRead m (zext16 lit + xval)

/-- `primary`, index 0..6 (R104). -/
def primaryTable : List Sel := [.STORE, .LOAD, .ADD, .BRANCH, .BRANCH_IF_ZERO, .CLEAR, .DECREMENT]

/-- `secondary`, index 0..3 (R104). -/
def secondaryTable : List Sel := [.HALT, .ENABLE_INT, .DISABLE_INT, .RESERVED]

/-- `dispatch_mux` (R104). An index outside a table is RESERVED; no index is (R183). -/
def dispatchMux (op : BitVec 3) (ext : Bool) (xop : BitVec 2) : Sel :=
  if ext then secondaryTable.getD xop.toNat .RESERVED else primaryTable.getD op.toNat .RESERVED

/-- `register_file`, the selected read port (R105). -/
def regFileRead (x a : Word) (rs : BitVec 1) : Word := if rs = 1 then a else x

/-- `register_file`, the state at the end of a step: `(X, A)` (R105). -/
def regFileNext (x a : Word) (rs : BitVec 1) (we : Bool) (wdata : Word) : Word × Word :=
  if we then (if rs = 1 then (x, wdata) else (wdata, a)) else (x, a)

/-- The write enable of `register_file`: 1 for LOAD, ADD, CLEAR, DECREMENT (R105). -/
def writeEnable : Sel → Bool
  | .LOAD | .ADD | .CLEAR | .DECREMENT => true
  | .STORE | .BRANCH | .BRANCH_IF_ZERO | .HALT | .ENABLE_INT | .DISABLE_INT | .RESERVED => false

/-- `alu_with_flags`, the result column (R106); 0 where the column says "not used". -/
def aluResult (sel : Sel) (a b : Word) : Word :=
  match sel with
  | .LOAD => b
  | .ADD => a + b
  | .CLEAR => 0
  | .DECREMENT => a - 1
  | .STORE | .BRANCH | .BRANCH_IF_ZERO | .HALT | .ENABLE_INT | .DISABLE_INT | .RESERVED => 0

/-- `alu_with_flags`, the next `Z` column (R106). -/
def nextZ (sel : Sel) (result : Word) (z : Bool) : Bool :=
  match sel with
  | .LOAD | .ADD | .DECREMENT => result == 0
  | .CLEAR => true
  | .STORE | .BRANCH | .BRANCH_IF_ZERO | .HALT | .ENABLE_INT | .DISABLE_INT => false
  | .RESERVED => z

/-- `alu_with_flags`, the next `IE` column (R106). -/
def nextIE (sel : Sel) (ie : Bool) : Bool :=
  match sel with
  | .ENABLE_INT => true
  | .DISABLE_INT => false
  | .STORE | .LOAD | .ADD | .BRANCH | .BRANCH_IF_ZERO | .CLEAR | .DECREMENT | .HALT | .RESERVED => ie

/-- `alu_with_flags`, the next `HALT` column (R106). -/
def nextHALT (sel : Sel) (halt : Bool) : Bool :=
  match sel with
  | .HALT => true
  | .STORE | .LOAD | .ADD | .BRANCH | .BRANCH_IF_ZERO | .CLEAR | .DECREMENT | .ENABLE_INT | .DISABLE_INT
  | .RESERVED => halt

/-- The `ztest` input of `program_counter` (R117): 0, the flag after the clear, or the stored flag. -/
def ztest (sample : BzSample) (z : Bool) : Bool :=
  match sample with
  | .afterClear => false
  | .beforeClear => z

/-- `program_counter` (R108). -/
def nextPc (sel : Sel) (pc ea : Word) (zt : Bool) : Word :=
  match sel with
  | .BRANCH => ea
  | .BRANCH_IF_ZERO => if zt then ea else pc + 1
  | .HALT => pc
  | .RESERVED => pc
  | .STORE | .LOAD | .ADD | .CLEAR | .DECREMENT | .ENABLE_INT | .DISABLE_INT => pc + 1

/-- Step control (R110): the next value of the error latch. -/
def nextERR (sel : Sel) (pc ir : Word) (err : Option ErrorReport) : Option ErrorReport :=
  if sel = .RESERVED then some (.decodeError pc ir) else err

/-- The connections of R109: all units read the values from before the step, and all state changes together at its end
(R119). A stopped core does nothing (R110). -/
def composedStep (sample : BzSample) (s : State) : State :=
  if s.HALT || s.ERR.isSome then s
  else
    let ir := fetchUnit s.M s.pc
    let d := decoder ir
    let ea := resolver s.M d.mode d.lit s.X
    let sel := dispatchMux d.op d.ext d.xop
    let rdata := regFileRead s.X s.A d.rs
    let result := aluResult sel rdata (loadStoreRead s.M ea)
    let regs := regFileNext s.X s.A d.rs (writeEnable sel) result
    { X := regs.1
      A := regs.2
      pc := nextPc sel s.pc ea (ztest sample s.Z)
      Z := nextZ sel result s.Z
      N := s.N
      C := s.C
      IE := nextIE sel s.IE
      HALT := nextHALT sel s.HALT
      M := loadStoreWrite s.M (sel = .STORE) ea rdata
      ERR := nextERR sel s.pc ir s.ERR }

end Sys2Proof.Machine.Units
end

