-- ==== Sys2Proof/Machine/Loader.lean ====
section
/-!
DEFINITION. The loader (spec/70_reset_and_hazards.md R205, R206). It stands outside the CORE (spec/00_scope.md R4) and is
modelled because it defines the initial memory image `M0`. The step function does not use it. A line whose form the spec
does not settle (spec/91_not_in_source.md N20) is refused under a name of its own. Log 11.
-/
namespace Sys2Proof.Machine.Loader

/-- The source text of a program: its lines, each a list of characters. -/
abbrev Listing := List (List Char)

/-- Why a program is not loaded. -/
inductive LoadError where
  /-- ProgramLoadError: the source is missing or unreadable (spec/60_exceptions.md R185). -/
  | programLoadError
  /-- A line that is neither blank, nor a comment, nor one literal in the form of R206. The spec says nothing of such a
  line (N20); the model refuses the listing, and no word of it is stored. DESIGN CHOICE (log 11). Safe. -/
  | unsettledLine
  deriving DecidableEq, Repr

/-- What one line holds (R206). -/
inductive Line where
  | skip
  | literal (v : Nat)
  | unsettled
  deriving DecidableEq, Repr

/-- Blank characters of a line: space, tab, carriage return. DESIGN CHOICE (log 11): the spec says "white space" and
names no characters. -/
def isBlank (c : Char) : Bool := c = ' ' || c = '\t' || c = '\r'

/-- Drop leading blanks. -/
def skipBlanks (cs : List Char) : List Char := cs.dropWhile isBlank

/-- The value of a digit in base 10 or 16. Hexadecimal digits of both cases count. DESIGN CHOICE (log 11). -/
def digit (base : Nat) (c : Char) : Option Nat :=
  let n := c.toNat
  if '0'.toNat ≤ n ∧ n ≤ '9'.toNat then some (n - '0'.toNat)
  else if base = 16 ∧ 'a'.toNat ≤ n ∧ n ≤ 'f'.toNat then some (n - 'a'.toNat + 10)
  else if base = 16 ∧ 'A'.toNat ≤ n ∧ n ≤ 'F'.toNat then some (n - 'A'.toNat + 10)
  else none

/-- Read digits from the front: the value so far, the number of digits read, and the rest. -/
def digits (base : Nat) : List Char → Nat → Nat → Nat × Nat × List Char
  | [], v, n => (v, n, [])
  | c :: cs, v, n =>
    match digit base c with
    | some d => digits base cs (v * base + d) (n + 1)
    | none => (v, n, c :: cs)

/-- What may follow a literal: an optional comma, then an optional `//` comment (R206). -/
def tailOk (cs : List Char) : Bool :=
  let afterComma := match skipBlanks cs with
    | ',' :: rest => skipBlanks rest
    | rest => rest
  match afterComma with
  | [] => true
  | '/' :: '/' :: _ => true
  | _ => false

/-- A literal in base `base` at the front of `cs`, and nothing the format does not allow after it. -/
def literalLine (base : Nat) (cs : List Char) : Line :=
  match digits base cs 0 0 with
  | (_, 0, _) => .unsettled
  | (v, _, rest) => if tailOk rest then .literal v else .unsettled

/-- One line of the listing (R206). DESIGN CHOICE (log 11) in the cases N20 leaves open: only `0x` with a small x is a
prefix, and every other literal is decimal, so that leading zeros change nothing (`010` is 10, and there is no octal); a
sign, the prefix `0X` or a bare `0x` makes the line unsettled. -/
def parseLine (cs : List Char) : Line :=
  match skipBlanks cs with
  | [] => .skip
  | ';' :: _ => .skip
  | '#' :: _ => .skip
  | '/' :: _ => .skip
  | '0' :: 'x' :: rest => literalLine 16 rest
  | rest => literalLine 10 rest

/-- The words of a listing, at most `capacity` of them; reading stops when they are reached (R206). Each literal is
wrapped to 16 bits. -/
def wordsOf : Nat → Listing → Except LoadError (List Word)
  | _, [] => .ok []
  | capacity, line :: lines =>
    if capacity = 0 then .ok []
    else
      match parseLine line with
      | .skip => wordsOf capacity lines
      | .unsettled => .error .unsettledLine
      | .literal v =>
        match wordsOf (capacity - 1) lines with
        | .ok ws => .ok (BitVec.ofNat 16 v :: ws)
        | .error e => .error e

/-- Store words at the next sequential indices from `index` on (R206). -/
def storeFrom : Nat → List Word → Memory → Memory
  | _, [], m => m
  | index, w :: ws, m => storeFrom (index + 1) ws (m.write index w)

/-- Load words into a memory: the first 4096 of them at 0, 1, 2, ...; every other cell keeps its content (R206). -/
def loadInto (ws : List Word) (m : Memory) : Memory := storeFrom 0 (ws.take 4096) m

/-- The initial memory image of a list of words: the words from 0 on, and 0 in every other cell (R205). Every array of
4096 Words is the image of its own list, so this is the spec's parameter `M0` (D15). -/
def image (ws : List Word) : Memory := loadInto ws []

/-- The launch state: the reset state with `M = M0` (R205). -/
def launch (ws : List Word) : State := State.reset.setM (image ws)

/-- Load a program source; `none` is a source that is missing or unreadable (R185, R206). -/
def loadSource : Option Listing → Except LoadError (List Word)
  | none => .error .programLoadError
  | some text => wordsOf 4096 text

end Sys2Proof.Machine.Loader
end

