-- ==== Sys2Proof/Machine/HostInterface.lean ====
section
/-!
DEFINITION. The control and observation interface the core offers to its host (spec/70_reset_and_hazards.md R200 to R212):
reset, load, step, run_until_halt, observe, and the lifecycle that says when each may be asked for (R203, R212).
-/
namespace Sys2Proof.Machine.HostInterface

/-- What a step request reports (R208, D9, log 15). -/
inductive StepResult where
  | running
  | halted
  | error
  deriving DecidableEq, Repr

/-- The result in the order of R209: error if the latch is set, else halted if `HALT = 1`, else running. No reachable
state has both (spec/10_state.md R41; log 6). -/
def report (s : State) : StepResult :=
  if s.ERR.isSome then .error else if s.HALT then .halted else .running

/-- The state after one step request. `step` always answers a next state (spec/40_blocks_and_step.md R120). -/
def afterStep (s : State) : State :=
  match step s with
  | .next t => t
  | .fault _ => s
  | .refused _ => s

/-- `step()` as the host sees it (R208). -/
def hostStep (s : State) : State × StepResult := (afterStep s, report (afterStep s))

/-- `reset()` (R200): every piece of state to its reset value, from any state (R202). -/
def hostReset (_ : State) : State := State.reset

/-- What `run_until_halt` gives: the result, the number of steps made, and the state it leaves. -/
structure RunResult where
  result : StepResult
  steps : Nat
  final : State
  deriving DecidableEq, Repr

/-- `run_until_halt(step_limit)` with `n` steps already made (R209). -/
def runFrom : Nat → Nat → State → RunResult
  | 0, n, s => ⟨report s, n, s⟩
  | limit + 1, n, s => if s.stopped then ⟨report s, n, s⟩ else runFrom limit (n + 1) (afterStep s)

/-- `run_until_halt(step_limit)` (R209). -/
def runUntilHalt (limit : Nat) (s : State) : RunResult := runFrom limit 0 s

/-- The read-only snapshot (R210): pc, the registers, the five flags, all 4096 memory words, and the latch, which the
spec adds. -/
structure Snapshot where
  pc : Word
  accumulator : Word
  indexRegister : Word
  zero : Bool
  negative : Bool
  carry : Bool
  interruptEnable : Bool
  halt : Bool
  memory : List Word
  errorLatch : Option ErrorReport
  deriving DecidableEq, Repr

/-- Observe a state between steps (R210). -/
def observe (s : State) : Snapshot where
  pc := s.pc
  accumulator := s.A
  indexRegister := s.X
  zero := s.Z
  negative := s.N
  carry := s.C
  interruptEnable := s.IE
  halt := s.HALT
  memory := (List.range 4096).map s.M.read
  errorLatch := s.ERR

/-- Where a run stands between a reset and the steps (R203, R204). -/
inductive Stage where
  /-- No step has been made since the reset: the host may load (R207, R212). -/
  | fresh
  /-- A step has been made: memory is the core's alone (R67, R212). -/
  | started
  /-- A load failed: execution never starts (spec/60_exceptions.md R185). That a further load is not offered here is the
  model's. DESIGN CHOICE (log 10). -/
  | loadFailed
  deriving DecidableEq, Repr

/-- A core with its host's stage. -/
structure Session where
  core : State
  stage : Stage
  deriving DecidableEq, Repr

/-- What the host may ask for, between steps (R207). -/
inductive Action where
  | reset
  | load (source : Option Loader.Listing)
  | step
  | runUntilHalt (limit : Nat)
  | observe
  deriving DecidableEq, Repr

/-- What the host is answered. -/
inductive Reply where
  | done
  | loadError (e : Loader.LoadError)
  | stepped (r : StepResult)
  | ran (r : StepResult) (steps : Nat)
  | seen (snapshot : Snapshot)
  /-- The interface offers no such move here (R212; spec/93_implementation_defined.md I13). -/
  | notOffered
  deriving DecidableEq, Repr

/-- The session after `steps` steps that left the core at `core`: the first step ends the time in which the host may load
(R207). A request that makes no step, such as run_until_halt with the limit 0 (R209), leaves the stage as it was. -/
def Session.afterSteps (h : Session) (steps : Nat) (core : State) : Session :=
  ⟨core, if steps = 0 then h.stage else .started⟩

/-- One move of the host (R212). The host has no move that writes a register, a flag or `pc`, and none that writes memory
once a step has been made (D13, log 10). DESIGN CHOICE (log 10): a second load before the first step is offered and stores
its words over what is there; a step may be made with nothing loaded; after a failed load only reset and observe are
offered. -/
def act (a : Action) (h : Session) : Session × Reply :=
  match a, h.stage with
  | .reset, _ => (⟨hostReset h.core, .fresh⟩, .done)
  | .observe, _ => (h, .seen (observe h.core))
  | .load source, .fresh =>
    match Loader.loadSource source with
    | .ok ws => (⟨h.core.setM (Loader.loadInto ws h.core.M), .fresh⟩, .done)
    | .error e => (⟨h.core, .loadFailed⟩, .loadError e)
  | .load _, _ => (h, .notOffered)
  | .step, .loadFailed => (h, .notOffered)
  | .step, _ => (h.afterSteps (if h.core.stopped then 0 else 1) (hostStep h.core).1, .stepped (hostStep h.core).2)
  | .runUntilHalt _, .loadFailed => (h, .notOffered)
  | .runUntilHalt limit, _ =>
    (h.afterSteps (runUntilHalt limit h.core).steps (runUntilHalt limit h.core).final,
      .ran (runUntilHalt limit h.core).result (runUntilHalt limit h.core).steps)

/-- The session after creation, which is the session after a reset (R200). -/
def Session.created : Session := ⟨State.reset, .fresh⟩

end Sys2Proof.Machine.HostInterface
end

