-- ==== Sys2Proof/Safety.lean ====
section
/-!
DEFINITION. The terms in which claims speak of runs: reachable states, the invariants of spec/10_state.md R41, and how a
run ends (spec/70_reset_and_hazards.md R211).
-/
namespace Sys2Proof.Machine

/-- The states a run can be in: a launch state (R205), and what a step leaves of one. -/
inductive Reachable : State → Prop where
  | launch (ws : List Word) : Reachable (Loader.launch ws)
  | step {s t : State} : Reachable s → Machine.step s = .next t → Reachable t

/-- The invariants of R41, clause by clause. The last clause is a consequence of `OOR_POLICY = wrap` (spec/
60_exceptions.md R184). -/
structure ReachableInv (s : State) : Prop where
  negativeClear : s.N = false
  carryClear : s.C = false
  halted : s.HALT = true → s.Z = false ∧ s.wordAtPc &&& 0x0EC0#16 = 0x0E00#16 ∧ s.ERR = none
  inError : ∀ p w, s.ERR = some (.decodeError p w) →
    s.pc = p ∧ s.HALT = false ∧ w = s.M.read (physIndex p) ∧ w &&& 0x0EC0#16 = 0x0EC0#16
  neverOutOfRange : ∀ p w a, s.ERR ≠ some (.outOfRangeAddress p w a)

/-- `n` step requests, one after another. -/
def stepN : Nat → State → State
  | 0, s => s
  | n + 1, s => stepN n (HostInterface.afterStep s)

/-- A run from `s` ends successfully at `t` (R211): `t` is the first state with `HALT = 1`, and no error came before. -/
def EndsAt (s t : State) : Prop :=
  ∃ n, stepN n s = t ∧ t.HALT = true ∧ t.ERR = none ∧ ∀ k < n, (stepN k s).stopped = false

/-- A run from `s` ends in failure at `t` (R211): `t` is the first state whose error latch is set. -/
def FailsAt (s t : State) : Prop :=
  ∃ n, stepN n s = t ∧ t.ERR.isSome = true ∧ ∀ k < n, (stepN k s).stopped = false

end Sys2Proof.Machine
end

