-- ==== Sys2Proof/Certificates/Slice0/Obligations.lean ====
section
/-!
DEFINITION. The statements for the provers. Rule numbers are those of spec/; "D<n>" is a decision of the spec
(spec/92_eei_decisions.md), named where a statement rests on one; "log <n>" is notes/assumptions/<n>.md.
-/
open Sys2Proof Sys2Proof.Machine Sys2Proof.Machine.HostInterface

/-! ### Reset, step, stop -/

/-- R200: reset puts every piece of state at zero, from any state, and creation gives the same state. -/
def Obligations.ResetPutsEverythingToZero : Prop :=
  ∀ s : State,
    (hostReset s).X = 0 ∧ (hostReset s).A = 0 ∧ (hostReset s).pc = 0 ∧ (hostReset s).Z = false ∧
    (hostReset s).N = false ∧ (hostReset s).C = false ∧ (hostReset s).IE = false ∧ (hostReset s).HALT = false ∧
    (∀ a < 4096, (hostReset s).M.read a = 0) ∧ (hostReset s).ERR = none ∧
    Session.created.core = hostReset s ∧ core.reset = hostReset s

/-- R115, R101, R27 (D1, D2): a step of a running core fetches `M[pc mod 4096]` and executes the instruction it decodes
to; so it runs a word placed at `pc`. -/
def Obligations.StepRunsTheDecodedInstruction : Prop :=
  ∀ s : State, s.HALT = false → s.ERR = none →
    step s = exec (decode (s.M.read (s.pc.toNat % 4096))) s ∧
    ∀ nbits w : Nat,
      step (s.withFetchWord nbits w) = exec (decode (BitVec.ofNat 16 w)) (s.withFetchWord nbits w)

/-- R121 (D5, log 6): a step request on a stopped core changes nothing; it reports `halted` or `error`. -/
def Obligations.StoppedCoreIgnoresStepRequests : Prop :=
  ∀ s : State,
    ((s.HALT = true ∨ s.ERR ≠ none) → step s = .next s) ∧
    (s.HALT = true → s.ERR = none → hostStep s = (s, .halted)) ∧
    (s.ERR ≠ none → hostStep s = (s, .error))

/-- R122, R182 (D4, D5): no number of step requests changes a stopped core, in the host's run either. -/
def Obligations.StoppedConditionIsSticky : Prop :=
  ∀ (s : State) (n : Nat), s.stopped = true →
    stepN n s = s ∧ core.run n s = .next s ∧ (runUntilHalt n s).final = s ∧ (runUntilHalt n s).steps = 0

/-- R120 (under wrap, D1): the step answers a next state in every state, and it is the parametrised step at the spec's
parameters. -/
def Obligations.StepIsTotal : Prop :=
  ∀ s : State, (∃ t, step s = .next t) ∧ step s = stepWith configuration s

/-! ### Addressing modes -/

/-- R130: the four cases of the effective address, over the numbers: the sum with the index wraps at 2^16, and a pointer
cell is `M[addr mod 4096]` (D1). The resolver of the meanings gives this value. -/
def Obligations.EffectiveAddressOfEachMode : Prop :=
  ∀ (s : State) (lit : BitVec 6),
    s.effAddr .direct lit = BitVec.ofNat 16 lit.toNat ∧
    s.effAddr .indirect lit = s.M.read lit.toNat ∧
    s.effAddr .indexed lit = BitVec.ofNat 16 ((lit.toNat + s.X.toNat) % 65536) ∧
    s.effAddr .indirectIndexed lit = s.M.read ((lit.toNat + s.X.toNat) % 65536 % 4096) ∧
    ∀ mode, resolve configuration s.M s.X mode lit = .ok (s.effAddr mode lit)

/-! ### Results of the instructions: each says that exec answers a next state, and which one -/

/-- R140: store. The cell at `ea mod 4096` (wrap, D1) takes the selected register, every other cell reads as before. -/
def Obligations.StoreWritesTheSelectedRegister : Prop :=
  ∀ (rs : RegSel) (mode : AddrMode) (lit : BitVec 6) (s : State),
    encode (.store rs mode lit) =
      0x0000#16 ||| (zext16 rs.toBit <<< 8) ||| (zext16 mode.toBits <<< 6) ||| zext16 lit ∧
    ∃ m : Memory,
      exec (.store rs mode lit) s = .next { s with Z := false, M := m, pc := s.pc + 1 } ∧
      m.read ((s.effAddr mode lit).toNat % 4096) = (if rs = .accumulator then s.A else s.X) ∧
      ∀ a, a ≠ (s.effAddr mode lit).toNat % 4096 → m.read a = s.M.read a

/-- R141: load. The address uses the old `X` also when `X` is the destination (R24); `ea mod 4096` is wrap (D1). -/
def Obligations.LoadReplacesTheSelectedRegister : Prop :=
  ∀ (rs : RegSel) (mode : AddrMode) (lit : BitVec 6) (s : State) (v : Word),
    v = s.M.read ((s.effAddr mode lit).toNat % 4096) →
    encode (.load rs mode lit) =
      0x0200#16 ||| (zext16 rs.toBit <<< 8) ||| (zext16 mode.toBits <<< 6) ||| zext16 lit ∧
    exec (.load rs mode lit) s =
      .next { s with
        X := if rs = .indexReg then v else s.X
        A := if rs = .accumulator then v else s.A
        Z := decide (v = 0)
        pc := s.pc + 1 }

/-- R142: add. The sum of the numbers, modulo 2^16; no carry or negative flag; `ea mod 4096` is wrap (D1). -/
def Obligations.AddGivesTheWrappedSum : Prop :=
  ∀ (rs : RegSel) (mode : AddrMode) (lit : BitVec 6) (s : State) (v : Word),
    v.toNat = ((if rs = .accumulator then s.A else s.X).toNat
      + (s.M.read ((s.effAddr mode lit).toNat % 4096)).toNat) % 65536 →
    encode (.add rs mode lit) =
      0x0400#16 ||| (zext16 rs.toBit <<< 8) ||| (zext16 mode.toBits <<< 6) ||| zext16 lit ∧
    exec (.add rs mode lit) s =
      .next { s with
        X := if rs = .indexReg then v else s.X
        A := if rs = .accumulator then v else s.A
        Z := decide (v = 0)
        pc := s.pc + 1 }

/-- R150: branch. All 16 bits of `ea` go to `pc`; the next fetch reads `M[ea mod 4096]`. -/
def Obligations.BranchLoadsTheWholeEffectiveAddress : Prop :=
  ∀ (rs : RegSel) (mode : AddrMode) (lit : BitVec 6) (s : State),
    encode (.branch .indexReg mode lit) = 0x0600#16 ||| (zext16 mode.toBits <<< 6) ||| zext16 lit ∧
    exec (.branch rs mode lit) s = .next { s with Z := false, pc := s.effAddr mode lit } ∧
    ∀ t, exec (.branch rs mode lit) s = .next t → t.wordAtPc = s.M.read ((s.effAddr mode lit).toNat % 4096)

/-- R153 (D6, log 7): under the spec's value `BZ_SAMPLE = after_clear` branch-if-zero falls through in every state. -/
def Obligations.BranchIfZeroFallsThrough : Prop :=
  ∀ (rs : RegSel) (mode : AddrMode) (lit : BitVec 6) (s : State),
    exec (.branchIfZero rs mode lit) s = .next { s with Z := false, pc := s.pc + 1 }

/-- R154 (D6, log 7): under the alternative `BZ_SAMPLE = before_clear` the branch is taken exactly when the zero flag was
set when the step began. -/
def Obligations.BranchIfZeroBeforeClear : Prop :=
  ∀ (rs : RegSel) (mode : AddrMode) (lit : BitVec 6) (s : State) (cfg : Config),
    cfg.oorPolicy = .wrap → cfg.bzSample = .beforeClear →
    execWith cfg (.branchIfZero rs mode lit) s =
      { s with Z := false, pc := if s.Z = true then s.effAddr mode lit else s.pc + 1 }

/-- R160: clear. Whatever the mode and the literal, the selected register is 0 and the zero flag is set. -/
def Obligations.ClearZeroesTheSelectedRegister : Prop :=
  ∀ (rs : RegSel) (mode : AddrMode) (lit : BitVec 6) (s : State),
    encode (.clear rs .direct 0) = 0x0A00#16 ||| (zext16 rs.toBit <<< 8) ∧
    exec (.clear rs mode lit) s =
      .next { s with
        X := if rs = .indexReg then 0 else s.X
        A := if rs = .accumulator then 0 else s.A
        Z := true
        pc := s.pc + 1 }

/-- R161: decrement. 0 goes to 65535; the zero flag is set exactly when the old value was 1. -/
def Obligations.DecrementSubtractsOne : Prop :=
  ∀ (rs : RegSel) (mode : AddrMode) (lit : BitVec 6) (s : State) (old v : Word),
    old = (if rs = .accumulator then s.A else s.X) →
    v.toNat = (if old.toNat = 0 then 65535 else old.toNat - 1) →
    encode (.decrement rs .direct 0) = 0x0C00#16 ||| (zext16 rs.toBit <<< 8) ∧
    exec (.decrement rs mode lit) s =
      .next { s with
        X := if rs = .indexReg then v else s.X
        A := if rs = .accumulator then v else s.A
        Z := decide (old = 1)
        pc := s.pc + 1 }

/-- R170: halt. Every word with `(w AND 0x0EC0) == 0x0E00` is a halt and no other word is; `pc` stays at the halt
instruction; the step reports `halted`. -/
def Obligations.HaltStopsAtItself : Prop :=
  ∀ (rs : RegSel) (lit : BitVec 6) (s : State),
    encode (.halt .indexReg 0) = 0x0E00#16 ∧
    (∀ w : Word, w &&& 0x0EC0#16 = 0x0E00#16 ↔ ∃ r l, decode w = .halt r l) ∧
    exec (.halt rs lit) s = .next { s with Z := false, HALT := true } ∧
    (s.ERR = none → report { s with Z := false, HALT := true } = .halted)

/-- R172: enable-interrupts, the words with `(w AND 0x0EC0) == 0x0E40`. -/
def Obligations.EnableInterruptsSetsIE : Prop :=
  ∀ (rs : RegSel) (lit : BitVec 6) (s : State),
    encode (.enableInterrupts .indexReg 0) = 0x0E40#16 ∧
    (∀ w : Word, w &&& 0x0EC0#16 = 0x0E40#16 ↔ ∃ r l, decode w = .enableInterrupts r l) ∧
    exec (.enableInterrupts rs lit) s = .next { s with Z := false, IE := true, pc := s.pc + 1 }

/-- R173: disable-interrupts, the words with `(w AND 0x0EC0) == 0x0E80`. -/
def Obligations.DisableInterruptsClearsIE : Prop :=
  ∀ (rs : RegSel) (lit : BitVec 6) (s : State),
    encode (.disableInterrupts .indexReg 0) = 0x0E80#16 ∧
    (∀ w : Word, w &&& 0x0EC0#16 = 0x0E80#16 ↔ ∃ r l, decode w = .disableInterrupts r l) ∧
    exec (.disableInterrupts rs lit) s = .next { s with Z := false, IE := false, pc := s.pc + 1 }

/-- R181, R208 (D4, D9, log 5): the reserved encoding latches DecodeError with `pc` and the raw word, and changes nothing
else: the zero flag is not cleared, `pc` does not move, HALT stays as it was. So a running core that fetches a word with
`(w AND 0x0EC0) == 0x0EC0` reports `error`, its latch holding that raw word, bits 15:12 among it. -/
def Obligations.ReservedEncodingLatchesDecodeError : Prop :=
  ∀ (w : Word) (s : State),
    exec (.reserved w) s = .next { s with ERR := some (.decodeError s.pc w) } ∧
    (s.HALT = false → s.ERR = none → s.M.read (s.pc.toNat % 4096) = w → w &&& 0x0EC0#16 = 0x0EC0#16 →
      hostStep s = ({ s with ERR := some (.decodeError s.pc w) }, .error))

/-! ### Frames -/

/-- Frame of load, add, clear, decrement (R23, R141, R142, R160, R161): only the selected register, `Z` and `pc` may
change. -/
def Obligations.RegisterWritersFrame : Prop :=
  ∀ (rs : RegSel) (mode : AddrMode) (lit : BitVec 6) (s t : State) (i : Instr),
    i = .load rs mode lit ∨ i = .add rs mode lit ∨ i = .clear rs mode lit ∨ i = .decrement rs mode lit →
    exec i s = .next t →
    (rs = .accumulator → t.X = s.X) ∧ (rs = .indexReg → t.A = s.A) ∧
    t.N = s.N ∧ t.C = s.C ∧ t.IE = s.IE ∧ t.HALT = s.HALT ∧ t.ERR = s.ERR ∧
    ∀ a, t.M.read a = s.M.read a

/-- Frame of store (R140): no register, no flag but `Z`, not the latch; every cell but the one at `ea mod 4096` (wrap, D1)
reads as before. -/
def Obligations.StoreFrame : Prop :=
  ∀ (rs : RegSel) (mode : AddrMode) (lit : BitVec 6) (s t : State),
    exec (.store rs mode lit) s = .next t →
    t.X = s.X ∧ t.A = s.A ∧ t.N = s.N ∧ t.C = s.C ∧ t.IE = s.IE ∧ t.HALT = s.HALT ∧ t.ERR = s.ERR ∧
    ∀ a, a ≠ (s.effAddr mode lit).toNat % 4096 → t.M.read a = s.M.read a

/-- Frame of branch, branch-if-zero, halt, enable-interrupts, disable-interrupts (R150, R152, R170, R172, R173). -/
def Obligations.ControlFrame : Prop :=
  ∀ (rs : RegSel) (mode : AddrMode) (lit : BitVec 6) (s t : State) (i : Instr),
    i = .branch rs mode lit ∨ i = .branchIfZero rs mode lit ∨ i = .halt rs lit ∨ i = .enableInterrupts rs lit ∨
      i = .disableInterrupts rs lit →
    exec i s = .next t →
    t.X = s.X ∧ t.A = s.A ∧ t.N = s.N ∧ t.C = s.C ∧ t.ERR = s.ERR ∧ (∀ a, t.M.read a = s.M.read a) ∧
    (i.sel ≠ .HALT → t.HALT = s.HALT) ∧ (i.sel ≠ .ENABLE_INT → i.sel ≠ .DISABLE_INT → t.IE = s.IE)

/-! ### Whole-machine rules -/

/-- R53, R59 (wrap, D1): a step changes memory only by a store, and then only the cell at `ea mod 4096`. -/
def Obligations.OnlyStoreChangesMemory : Prop :=
  ∀ s t : State, step s = .next t →
    (∀ a, t.M.read a = s.M.read a) ∨
    ∃ rs mode lit, s.stopped = false ∧ decode s.wordAtPc = .store rs mode lit ∧
      ∀ a, a ≠ (s.effAddr mode lit).toNat % 4096 → t.M.read a = s.M.read a

/-- R30, R31, R32: no step changes `N` or `C`; a step changes `IE` only by an enable-interrupts or disable-interrupts
word, told by its mask (R86). -/
def Obligations.InertFlagWriters : Prop :=
  ∀ s t : State, step s = .next t →
    t.N = s.N ∧ t.C = s.C ∧
    t.IE = (if s.stopped = false ∧ s.wordAtPc &&& 0x0EC0#16 = 0x0E40#16 then true
            else if s.stopped = false ∧ s.wordAtPc &&& 0x0EC0#16 = 0x0E80#16 then false else s.IE)

/-- R33, R35 (D4): a step sets HALT only by a halt word and the latch only by a reserved word, told by their masks
(R86, R90), and clears neither. -/
def Obligations.StopConditionWriters : Prop :=
  ∀ s t : State, step s = .next t →
    t.HALT = (s.HALT || decide (s.stopped = false ∧ s.wordAtPc &&& 0x0EC0#16 = 0x0E00#16)) ∧
    t.ERR = (if s.stopped = false ∧ s.wordAtPc &&& 0x0EC0#16 = 0x0EC0#16
             then some (.decodeError s.pc s.wordAtPc) else s.ERR)

/-- R29 (the reserved word: D4): the zero flag after each instruction, told by the register it wrote. -/
def Obligations.ZeroFlagAfterEachInstruction : Prop :=
  ∀ (i : Instr) (s t : State), exec i s = .next t →
    t.Z = match i with
      | .load rs _ _ => decide ((if rs = .accumulator then t.A else t.X) = 0)
      | .add rs _ _ => decide ((if rs = .accumulator then t.A else t.X) = 0)
      | .decrement rs _ _ => decide ((if rs = .accumulator then t.A else t.X) = 0)
      | .clear _ _ _ => true
      | .store _ _ _ | .branch _ _ _ | .branchIfZero _ _ _ | .halt _ _ | .enableInterrupts _ _
      | .disableInterrupts _ _ => false
      | .reserved _ => s.Z

/-- R188, R30 to R32: the values of `N`, `C` and `IE` influence nothing else. -/
def Obligations.InertFlagsInfluenceNothing : Prop :=
  ∀ (s t : State) (n c ie : Bool), step s = .next t →
    ∃ ie' : Bool, step { s with N := n, C := c, IE := ie } = .next { t with N := n, C := c, IE := ie' }

/-- R223, R153 (D6): under the spec's parameters no instruction sees the zero flag the step began with. -/
def Obligations.StoredZeroFlagIsNeverRead : Prop :=
  ∀ (s : State) (b : Bool), s.stopped = false → s.wordAtPc &&& 0x0EC0#16 ≠ 0x0EC0#16 →
    step { s with Z := b } = step s

/-- R26, R155: after a step that is not a branch, a halt or an error, `pc` is one further, modulo 2^16 (branch-if-zero
under after_clear, D6). -/
def Obligations.OtherStepsAdvanceByOne : Prop :=
  ∀ s t : State, s.stopped = false → step s = .next t →
    (decode s.wordAtPc).sel ≠ .BRANCH → (decode s.wordAtPc).sel ≠ .HALT → (decode s.wordAtPc).sel ≠ .RESERVED →
    t.pc.toNat = (s.pc.toNat + 1) % 65536

/-- R27, R52 (D1, D2): a core whose `pc` names the same cell modulo 4096 executes the same instruction with the same
effect on registers, flags and memory. -/
def Obligations.PcAboveMemoryExecutesTheSameInstruction : Prop :=
  ∀ (s t : State) (q : Word), q.toNat % 4096 = s.pc.toNat % 4096 → step s = .next t →
    ∃ t', step { s with pc := q } = .next t' ∧
      t'.X = t.X ∧ t'.A = t.A ∧ t'.Z = t.Z ∧ t'.N = t.N ∧ t'.C = t.C ∧ t'.IE = t.IE ∧ t'.HALT = t.HALT ∧
      t'.M = t.M ∧ t'.ERR.isSome = t.ERR.isSome

/-- R65: a store into the next instruction's cell is what the very next step executes. -/
def Obligations.StoreIsSeenByTheNextFetch : Prop :=
  ∀ (s t : State) (rs : RegSel) (mode : AddrMode) (lit : BitVec 6),
    s.stopped = false → decode s.wordAtPc = .store rs mode lit → step s = .next t →
    (s.effAddr mode lit).toNat % 4096 = (s.pc.toNat + 1) % 4096 →
    step t = exec (decode (if rs = .accumulator then s.A else s.X)) t

/-- R121, R41 (D5): executing the halt instruction again in a halted state changes nothing. -/
def Obligations.ReexecutingHaltChangesNothing : Prop :=
  ∀ s : State, s.HALT = true → s.Z = false → s.wordAtPc &&& 0x0EC0#16 = 0x0E00#16 →
    exec (decode s.wordAtPc) s = .next s

/-! ### Invariants -/

/-- R41: the reset state and every launch state have the invariants. That their memory is in canonical form is no rule of
the spec: the form is the model's own choice (DESIGN CHOICE, log 1). -/
def Obligations.LaunchStatesHaveTheInvariant : Prop :=
  ReachableInv State.reset ∧ ∀ ws : List Word, ReachableInv (Loader.launch ws) ∧ (Loader.launch ws).M.wf = true

/-- R41: every step keeps the invariants. -/
def Obligations.StepKeepsTheInvariant : Prop :=
  ∀ s t : State, ReachableInv s → step s = .next t → ReachableInv t

/-- Every step keeps the canonical form of memory (log 1). -/
def Obligations.StepKeepsMemoryCanonical : Prop :=
  ∀ s t : State, s.M.wf = true → step s = .next t → t.M.wf = true

/-- R41, R211: every reachable state has the invariants, and a run that ends successfully has `Z = 0`, `HALT = 1`, `N = C = 0`, an empty
latch and a halt instruction at `pc`. -/
def Obligations.ReachableStatesAndRunEnds : Prop :=
  (∀ s : State, Reachable s → ReachableInv s) ∧
  ∀ (ws : List Word) (t : State), EndsAt (Loader.launch ws) t →
    t.Z = false ∧ t.HALT = true ∧ t.N = false ∧ t.C = false ∧ t.ERR = none ∧
    t.wordAtPc &&& 0x0EC0#16 = 0x0E00#16

/-- R211, R41 (D4): a run that ends in failure ends with the latch holding DecodeError of `pc` and of the reserved word
there, on a core that is not halted. -/
def Obligations.FailingRunEndsAtAReservedWord : Prop :=
  ∀ (ws : List Word) (t : State), FailsAt (Loader.launch ws) t →
    t.ERR = some (.decodeError t.pc t.wordAtPc) ∧ t.wordAtPc &&& 0x0EC0#16 = 0x0EC0#16 ∧ t.HALT = false

/-- R100 to R110, R115 (D7, log 17): the eight units compose to the step, under either reading of branch-if-zero. -/
def Obligations.EightUnitsComposeToTheStep : Prop :=
  (∀ s : State, step s = .next (Units.composedStep .afterClear s)) ∧
  ∀ (cfg : Config) (s : State), cfg.oorPolicy = .wrap →
    stepWith cfg s = .next (Units.composedStep cfg.bzSample s)

/-! ### Encoding -/

/-- R87, R81: decoding the encoding of any well-formed instruction gives it back. -/
def Obligations.DecodeOfEncode : Prop :=
  ∀ i : Instr, i.wf = true → decode (encode i) = i

/-- R82, R89 (D3): the decoder loses nothing of a word but bits 15:12, and nothing of a reserved word; what it gives is
well-formed. That an instruction keeps the ignored fields, and a reserved word all its bits, so that `encode` gives them
back, is the model's own choice (DESIGN CHOICE, log 19): R87's canonical encoding has the ignored fields zero. -/
def Obligations.EncodeOfDecode : Prop :=
  ∀ w : Word, (decode w).wf = true ∧
    encode (decode w) = if w &&& 0x0EC0#16 = 0x0EC0#16 then w else w &&& 0x0FFF#16

/-- R81, R87 (R82 is D3): the four fields of a word built from them come back, whatever bits 15:12 hold. -/
def Obligations.FieldsOfABuiltWord : Prop :=
  ∀ (f : Fields) (h : BitVec 4), fields (encodeFields f ||| (zext16 h <<< 12)) = f

/-- R86: exactly one row of the opcode map selects each word, and it is the row of the instruction the word decodes to. -/
def Obligations.OneOpcodeRowSelectsEachWord : Prop :=
  ∀ w : Word, ∃ row ∈ opcodeTable, row.selects w = true ∧ row.sel = (decode w).sel ∧
    ∀ other ∈ opcodeTable, other.selects w = true → other = row

/-- R82, R89 (D3): bits 15:12 and the ignored fields make no difference. -/
def Obligations.IgnoredFieldsMakeNoDifference : Prop :=
  (∀ (w : Word) (h : BitVec 4), w &&& 0x0EC0#16 ≠ 0x0EC0#16 → decode (w ^^^ (zext16 h <<< 12)) = decode w) ∧
  ∀ (r r' : RegSel) (m m' : AddrMode) (l l' : BitVec 6) (s : State),
    exec (.branch r m l) s = exec (.branch r' m l) s ∧
    exec (.branchIfZero r m l) s = exec (.branchIfZero r' m l) s ∧
    exec (.clear r m l) s = exec (.clear r m' l') s ∧
    exec (.decrement r m l) s = exec (.decrement r m' l') s ∧
    exec (.halt r l) s = exec (.halt r' l') s ∧
    exec (.enableInterrupts r l) s = exec (.enableInterrupts r' l') s ∧
    exec (.disableInterrupts r l) s = exec (.disableInterrupts r' l') s

/-- R81, R86: eight words of the decoding table V1, written out bit by bit, one or more of each family. -/
def Obligations.KnownWordsDecode : Prop :=
  decode 0b0000000101001011#16 = .store .accumulator .indirect 11 ∧
  decode 0b0000001111000101#16 = .load .accumulator .indirectIndexed 5 ∧
  decode 0b0000010100010001#16 = .add .accumulator .direct 17 ∧
  decode 0b0000011011010110#16 = .branch .indexReg .indirectIndexed 22 ∧
  decode 0b0000101000000000#16 = .clear .indexReg .direct 0 ∧
  decode 0b0000110100000000#16 = .decrement .accumulator .direct 0 ∧
  decode 0b0000111110111111#16 = .disableInterrupts .accumulator 63 ∧
  decode 0b1111111111111111#16 = .reserved 0xFFFF

/-! ### The parameters -/

/-- R154 (D6): the two readings of branch-if-zero give the same step unless a branch-if-zero meets a set zero flag. -/
def Obligations.BranchIfZeroReadingsAgree : Prop :=
  ∀ (cfg : Config) (s : State), s.Z = false ∨ (decode s.wordAtPc).sel ≠ .BRANCH_IF_ZERO →
    stepWith { cfg with bzSample := .afterClear } s = stepWith { cfg with bzSample := .beforeClear } s

/-- R184 (D1, log 8): under `OOR_POLICY = reject` a step is the step under wrap, or it changes nothing but the latch, which
records OutOfRangeAddress with an address above 4095. -/
def Obligations.RejectDiffersOnlyByTheError : Prop :=
  ∀ (cfg : Config) (s : State), cfg.oorPolicy = .reject →
    stepWith cfg s = stepWith { cfg with oorPolicy := .wrap } s ∨
    ∃ (w : Option Word) (addr : Word), 4096 ≤ addr.toNat ∧
      stepWith cfg s = .next { s with ERR := some (.outOfRangeAddress s.pc w addr) }

/-- R184 (D1, log 8): under reject, the access of a store, load or add at an `ea` above 4095 ends the step so, when the
address itself could be formed. -/
def Obligations.RejectStopsDataAccessAboveMemory : Prop :=
  ∀ (cfg : Config) (rs : RegSel) (mode : AddrMode) (lit : BitVec 6) (ea : Word) (s : State) (i : Instr),
    cfg.oorPolicy = .reject → resolve cfg s.M s.X mode lit = .ok ea → 4096 ≤ ea.toNat →
    i = .store rs mode lit ∨ i = .load rs mode lit ∨ i = .add rs mode lit →
    execWith cfg i s = { s with ERR := some (.outOfRangeAddress s.pc (some s.wordAtPc) ea) }

/-- R184, R189 (D1, log 8): under reject, a fetch at a `pc` above 4095 ends the step before any word is read, and a pointer
read at `lit + X` above 4095 ends an instruction that uses the effective address. It ends clear, decrement and the reserved
encoding too, before the reserved-encoding test, where the read they discard is performed; whether it is performed is a
parameter, since R184 leaves it open (DESIGN CHOICE, log 8). No other instruction makes such a read. -/
def Obligations.RejectStopsFetchAndPointerAboveMemory : Prop :=
  ∀ (cfg : Config) (s : State), cfg.oorPolicy = .reject →
    (s.stopped = false → 4096 ≤ s.pc.toNat →
      stepWith cfg s = .next { s with ERR := some (.outOfRangeAddress s.pc none s.pc) }) ∧
    ∀ (rs : RegSel) (lit : BitVec 6) (addr : Word) (i : Instr),
      addr.toNat = (lit.toNat + s.X.toNat) % 65536 → 4096 ≤ addr.toNat →
      i = .store rs .indirectIndexed lit ∨ i = .load rs .indirectIndexed lit ∨ i = .add rs .indirectIndexed lit ∨
        i = .branch rs .indirectIndexed lit ∨ i = .branchIfZero rs .indirectIndexed lit ∨
        (cfg.readUnusedPointer = true ∧
          (i = .clear rs .indirectIndexed lit ∨ i = .decrement rs .indirectIndexed lit ∨
            ∃ w, (fields w).lit = lit ∧ i = .reserved w)) →
      execWith cfg i s = { s with ERR := some (.outOfRangeAddress s.pc (some s.wordAtPc) addr) }

/-- R59, R58 (D14): under wrap it makes no difference whether a discarded pointer read is performed. -/
def Obligations.DiscardedPointerReadIsUnobservable : Prop :=
  ∀ (cfg : Config) (b : Bool) (s : State), cfg.oorPolicy = .wrap →
    stepWith { cfg with readUnusedPointer := b } s = stepWith cfg s

/-! ### The host interface -/

/-- R209 (D9, log 15): run_until_halt makes at most `limit` steps, each from a core that was not stopped, stops early only
when the core stopped, and reports that state. -/
def Obligations.RunUntilHaltCountsItsSteps : Prop :=
  ∀ (limit : Nat) (s : State),
    (runUntilHalt limit s).steps ≤ limit ∧
    (runUntilHalt limit s).final = stepN (runUntilHalt limit s).steps s ∧
    (runUntilHalt limit s).result = report (runUntilHalt limit s).final ∧
    (∀ k < (runUntilHalt limit s).steps, (stepN k s).stopped = false) ∧
    ((runUntilHalt limit s).steps < limit → (runUntilHalt limit s).final.stopped = true)

/-- R205, R206 (D15, log 11): the launch state is the reset state with the words at 0, 1, 2, ..., at most 4096 of them, and
0 in every other cell. -/
def Obligations.LaunchImageHoldsTheWords : Prop :=
  ∀ ws : List Word,
    (∀ a < 4096, (Loader.launch ws).M.read a = ws.getD a 0) ∧
    { Loader.launch ws with M := [] } = State.reset

/-- R206, R185: a listing gives at most 4096 words; a source that cannot be read gives ProgramLoadError and loads nothing.
That after it every move but reset and observe, so a step, a run and a further load, is answered `notOffered` and changes
nothing is how the model renders "execution never starts" (DESIGN CHOICE, log 10). -/
def Obligations.LoaderKeepsToCapacity : Prop :=
  (∀ (text : Loader.Listing) (ws : List Word), Loader.loadSource (some text) = .ok ws → ws.length ≤ 4096) ∧
  ∀ c : State, act (.load none) ⟨c, .fresh⟩ = (⟨c, .loadFailed⟩, .loadError .programLoadError) ∧
    ∀ a : Action, a ≠ .reset → a ≠ .observe → act a ⟨c, .loadFailed⟩ = (⟨c, .loadFailed⟩, .notOffered)

/-- R210: the snapshot shows pc, both registers, the five flags and all 4096 words (and the latch, D4); observing changes
nothing. -/
def Obligations.ObservationShowsTheState : Prop :=
  ∀ h : Session,
    act .observe h = (h, .seen (observe h.core)) ∧
    (observe h.core).pc = h.core.pc ∧ (observe h.core).accumulator = h.core.A ∧
    (observe h.core).indexRegister = h.core.X ∧ (observe h.core).zero = h.core.Z ∧
    (observe h.core).negative = h.core.N ∧ (observe h.core).carry = h.core.C ∧
    (observe h.core).interruptEnable = h.core.IE ∧ (observe h.core).halt = h.core.HALT ∧
    (observe h.core).errorLatch = h.core.ERR ∧ (observe h.core).memory.length = 4096 ∧
    ∀ a < 4096, (observe h.core).memory[a]? = some (h.core.M.read a)

/-- R67, R212 (D13, log 10): once a run has started the host's only moves on the core are reset and steps. -/
def Obligations.HostOnlyStepsAStartedRun : Prop :=
  ∀ (a : Action) (h : Session), h.stage = .started →
    (a = .reset ∧ (act a h).1 = Session.created) ∨
    ((act a h).1.stage = .started ∧ ∃ n, (act a h).1.core = stepN n h.core)

/-- R207, R212 (D13): the host may load until the first step and not after it. A load puts the words at 0, 1, 2, ... and
changes nothing else, and leaves a further load on offer (that a second load keeps the cells it does not reach is the
model's, DESIGN CHOICE, log 10); right after a reset it gives the launch state (R205). A run of limit 0 makes no step, so it
changes nothing (R209); once a running core has made a step, a load is not offered. -/
def Obligations.HostMayLoadUntilTheFirstStep : Prop :=
  ∀ (text : Loader.Listing) (ws : List Word) (c : State), Loader.loadSource (some text) = .ok ws →
    (∃ m : Memory, act (.load (some text)) ⟨c, .fresh⟩ = (⟨{ c with M := m }, .fresh⟩, .done) ∧
      ∀ a, m.read a = if a < ws.length then ws.getD a 0 else c.M.read a) ∧
    act (.load (some text)) Session.created = (⟨Loader.launch ws, .fresh⟩, .done) ∧
    (∀ st : Stage, st ≠ .loadFailed →
      act (.runUntilHalt 0) ⟨c, st⟩ = (⟨c, st⟩, .ran (report c) 0)) ∧
    (c.stopped = false → ∀ (a : Action) (limit : Nat), (a = .step ∨ a = .runUntilHalt (limit + 1)) →
      (act a ⟨c, .fresh⟩).1.stage = .started) ∧
    ∀ (d : State) (src : Option Loader.Listing), act (.load src) ⟨d, .started⟩ = (⟨d, .started⟩, .notOffered)
end

