-- ==== Sys2Proof/Laws/Host.lean ====
section
/-!
SUPPORT. What the loader and the session can do, said once: what a loaded memory reads as, that loading keeps the canonical
form, and the stage after a number of steps.
-/
namespace Sys2Proof.Machine

/-- Storing words from index `i` on: word `a - i` of the list in the cells they reach, the old content elsewhere (R206). -/
theorem Loader.storeFrom_read (i : Nat) (ws : List Word) (m : Memory) (a : Nat) :
    (Loader.storeFrom i ws m).read a = if i ≤ a ∧ a < i + ws.length then ws.getD (a - i) 0 else m.read a := by
  induction ws generalizing i m with
  | nil => simp [Loader.storeFrom]
  | cons w ws ih =>
    simp only [Loader.storeFrom, ih, Memory.read_write, List.length_cons]
    by_cases h1 : a = i
    · subst h1; simp
    · by_cases h2 : i + 1 ≤ a ∧ a < i + 1 + ws.length
      · rw [if_pos h2, if_pos (by omega), show a - i = (a - (i + 1)) + 1 by omega]; simp
      · rw [if_neg h2, if_neg h1, if_neg (by omega)]

theorem Loader.storeFrom_wf {i : Nat} {ws : List Word} {m : Memory} (h : m.wf = true) (hi : i + ws.length ≤ 4096) :
    (Loader.storeFrom i ws m).wf = true := by
  induction ws generalizing i m with
  | nil => exact h
  | cons w ws ih =>
    simp only [List.length_cons] at hi
    exact ih (Memory.write_wf h (by omega)) (by omega)

/-- Loading: the first 4096 words of the list in their cells, the old content elsewhere (R206). -/
theorem Loader.loadInto_read (ws : List Word) (m : Memory) (a : Nat) :
    (Loader.loadInto ws m).read a = if a < min 4096 ws.length then ws.getD a 0 else m.read a := by
  rw [Loader.loadInto, Loader.storeFrom_read]
  simp only [Nat.zero_le, true_and, Nat.zero_add, Nat.sub_zero, List.length_take]
  split
  · next h => simp [List.getD, show a < 4096 by omega]
  · rfl

theorem Loader.loadInto_wf (ws : List Word) {m : Memory} (h : m.wf = true) : (Loader.loadInto ws m).wf = true :=
  Loader.storeFrom_wf h (by simp)

namespace HostInterface

@[simp] theorem Session.afterSteps_core (h : Session) (n : Nat) (c : State) : (h.afterSteps n c).core = c := rfl
@[simp] theorem Session.afterSteps_zero (h : Session) (c : State) : h.afterSteps 0 c = ⟨c, h.stage⟩ := rfl
@[simp] theorem Session.afterSteps_succ (h : Session) (n : Nat) (c : State) : h.afterSteps (n + 1) c = ⟨c, .started⟩ := rfl

/-- A started session stays started, however many steps are made. -/
theorem Session.afterSteps_started {h : Session} (hs : h.stage = .started) (n : Nat) (c : State) :
    h.afterSteps n c = ⟨c, .started⟩ := by
  cases n with
  | zero => rw [Session.afterSteps_zero, hs]
  | succ n => exact Session.afterSteps_succ h n c

/-- A run counts no fewer steps than it began with. -/
theorem runFrom_steps_le (limit n : Nat) (s : State) : n ≤ (runFrom limit n s).steps := by
  induction limit generalizing n s with
  | zero => exact Nat.le_refl n
  | succ limit ih =>
    unfold runFrom
    split
    · exact Nat.le_refl n
    · exact Nat.le_of_succ_le (ih (n + 1) (afterStep s))

end HostInterface
end Sys2Proof.Machine
end

