-- ==== Sys2Proof/Laws/State.lean ====
section
/-!
SUPPORT. One lemma for each field of State under each named update, true by unfolding the update once, so that no later
proof unfolds a record update.
-/
namespace Sys2Proof.Machine

variable (s : State)

/-! ### setZ -/

@[simp] theorem State.setZ_X (b : Bool) : (s.setZ b).X = s.X := rfl
@[simp] theorem State.setZ_A (b : Bool) : (s.setZ b).A = s.A := rfl
@[simp] theorem State.setZ_pc (b : Bool) : (s.setZ b).pc = s.pc := rfl
@[simp] theorem State.setZ_Z (b : Bool) : (s.setZ b).Z = b := rfl
@[simp] theorem State.setZ_N (b : Bool) : (s.setZ b).N = s.N := rfl
@[simp] theorem State.setZ_C (b : Bool) : (s.setZ b).C = s.C := rfl
@[simp] theorem State.setZ_IE (b : Bool) : (s.setZ b).IE = s.IE := rfl
@[simp] theorem State.setZ_HALT (b : Bool) : (s.setZ b).HALT = s.HALT := rfl
@[simp] theorem State.setZ_M (b : Bool) : (s.setZ b).M = s.M := rfl
@[simp] theorem State.setZ_ERR (b : Bool) : (s.setZ b).ERR = s.ERR := rfl

/-! ### setIE -/

@[simp] theorem State.setIE_X (b : Bool) : (s.setIE b).X = s.X := rfl
@[simp] theorem State.setIE_A (b : Bool) : (s.setIE b).A = s.A := rfl
@[simp] theorem State.setIE_pc (b : Bool) : (s.setIE b).pc = s.pc := rfl
@[simp] theorem State.setIE_Z (b : Bool) : (s.setIE b).Z = s.Z := rfl
@[simp] theorem State.setIE_N (b : Bool) : (s.setIE b).N = s.N := rfl
@[simp] theorem State.setIE_C (b : Bool) : (s.setIE b).C = s.C := rfl
@[simp] theorem State.setIE_IE (b : Bool) : (s.setIE b).IE = b := rfl
@[simp] theorem State.setIE_HALT (b : Bool) : (s.setIE b).HALT = s.HALT := rfl
@[simp] theorem State.setIE_M (b : Bool) : (s.setIE b).M = s.M := rfl
@[simp] theorem State.setIE_ERR (b : Bool) : (s.setIE b).ERR = s.ERR := rfl

/-! ### setHALT -/

@[simp] theorem State.setHALT_X (b : Bool) : (s.setHALT b).X = s.X := rfl
@[simp] theorem State.setHALT_A (b : Bool) : (s.setHALT b).A = s.A := rfl
@[simp] theorem State.setHALT_pc (b : Bool) : (s.setHALT b).pc = s.pc := rfl
@[simp] theorem State.setHALT_Z (b : Bool) : (s.setHALT b).Z = s.Z := rfl
@[simp] theorem State.setHALT_N (b : Bool) : (s.setHALT b).N = s.N := rfl
@[simp] theorem State.setHALT_C (b : Bool) : (s.setHALT b).C = s.C := rfl
@[simp] theorem State.setHALT_IE (b : Bool) : (s.setHALT b).IE = s.IE := rfl
@[simp] theorem State.setHALT_HALT (b : Bool) : (s.setHALT b).HALT = b := rfl
@[simp] theorem State.setHALT_M (b : Bool) : (s.setHALT b).M = s.M := rfl
@[simp] theorem State.setHALT_ERR (b : Bool) : (s.setHALT b).ERR = s.ERR := rfl

/-! ### setPc -/

@[simp] theorem State.setPc_X (t : Word) : (s.setPc t).X = s.X := rfl
@[simp] theorem State.setPc_A (t : Word) : (s.setPc t).A = s.A := rfl
@[simp] theorem State.setPc_pc (t : Word) : (s.setPc t).pc = t := rfl
@[simp] theorem State.setPc_Z (t : Word) : (s.setPc t).Z = s.Z := rfl
@[simp] theorem State.setPc_N (t : Word) : (s.setPc t).N = s.N := rfl
@[simp] theorem State.setPc_C (t : Word) : (s.setPc t).C = s.C := rfl
@[simp] theorem State.setPc_IE (t : Word) : (s.setPc t).IE = s.IE := rfl
@[simp] theorem State.setPc_HALT (t : Word) : (s.setPc t).HALT = s.HALT := rfl
@[simp] theorem State.setPc_M (t : Word) : (s.setPc t).M = s.M := rfl
@[simp] theorem State.setPc_ERR (t : Word) : (s.setPc t).ERR = s.ERR := rfl

/-! ### setM -/

@[simp] theorem State.setM_X (m : Memory) : (s.setM m).X = s.X := rfl
@[simp] theorem State.setM_A (m : Memory) : (s.setM m).A = s.A := rfl
@[simp] theorem State.setM_pc (m : Memory) : (s.setM m).pc = s.pc := rfl
@[simp] theorem State.setM_Z (m : Memory) : (s.setM m).Z = s.Z := rfl
@[simp] theorem State.setM_N (m : Memory) : (s.setM m).N = s.N := rfl
@[simp] theorem State.setM_C (m : Memory) : (s.setM m).C = s.C := rfl
@[simp] theorem State.setM_IE (m : Memory) : (s.setM m).IE = s.IE := rfl
@[simp] theorem State.setM_HALT (m : Memory) : (s.setM m).HALT = s.HALT := rfl
@[simp] theorem State.setM_M (m : Memory) : (s.setM m).M = m := rfl
@[simp] theorem State.setM_ERR (m : Memory) : (s.setM m).ERR = s.ERR := rfl

/-! ### takeError -/

@[simp] theorem State.takeError_X (e : ErrorReport) : (s.takeError e).X = s.X := rfl
@[simp] theorem State.takeError_A (e : ErrorReport) : (s.takeError e).A = s.A := rfl
@[simp] theorem State.takeError_pc (e : ErrorReport) : (s.takeError e).pc = s.pc := rfl
@[simp] theorem State.takeError_Z (e : ErrorReport) : (s.takeError e).Z = s.Z := rfl
@[simp] theorem State.takeError_N (e : ErrorReport) : (s.takeError e).N = s.N := rfl
@[simp] theorem State.takeError_C (e : ErrorReport) : (s.takeError e).C = s.C := rfl
@[simp] theorem State.takeError_IE (e : ErrorReport) : (s.takeError e).IE = s.IE := rfl
@[simp] theorem State.takeError_HALT (e : ErrorReport) : (s.takeError e).HALT = s.HALT := rfl
@[simp] theorem State.takeError_M (e : ErrorReport) : (s.takeError e).M = s.M := rfl
@[simp] theorem State.takeError_ERR (e : ErrorReport) : (s.takeError e).ERR = some e := rfl

/-! ### clearZ -/

@[simp] theorem State.clearZ_X : (s.clearZ).X = s.X := rfl
@[simp] theorem State.clearZ_A : (s.clearZ).A = s.A := rfl
@[simp] theorem State.clearZ_pc : (s.clearZ).pc = s.pc := rfl
@[simp] theorem State.clearZ_Z : (s.clearZ).Z = false := rfl
@[simp] theorem State.clearZ_N : (s.clearZ).N = s.N := rfl
@[simp] theorem State.clearZ_C : (s.clearZ).C = s.C := rfl
@[simp] theorem State.clearZ_IE : (s.clearZ).IE = s.IE := rfl
@[simp] theorem State.clearZ_HALT : (s.clearZ).HALT = s.HALT := rfl
@[simp] theorem State.clearZ_M : (s.clearZ).M = s.M := rfl
@[simp] theorem State.clearZ_ERR : (s.clearZ).ERR = s.ERR := rfl

/-! ### advance -/

@[simp] theorem State.advance_X : (s.advance).X = s.X := rfl
@[simp] theorem State.advance_A : (s.advance).A = s.A := rfl
@[simp] theorem State.advance_pc : (s.advance).pc = s.pc + 1 := rfl
@[simp] theorem State.advance_Z : (s.advance).Z = s.Z := rfl
@[simp] theorem State.advance_N : (s.advance).N = s.N := rfl
@[simp] theorem State.advance_C : (s.advance).C = s.C := rfl
@[simp] theorem State.advance_IE : (s.advance).IE = s.IE := rfl
@[simp] theorem State.advance_HALT : (s.advance).HALT = s.HALT := rfl
@[simp] theorem State.advance_M : (s.advance).M = s.M := rfl
@[simp] theorem State.advance_ERR : (s.advance).ERR = s.ERR := rfl

/-! ### writeReg and readReg -/

@[simp] theorem State.writeReg_pc (r : RegSel) (v : Word) : (s.writeReg r v).pc = s.pc := by cases r <;> rfl
@[simp] theorem State.writeReg_Z (r : RegSel) (v : Word) : (s.writeReg r v).Z = s.Z := by cases r <;> rfl
@[simp] theorem State.writeReg_N (r : RegSel) (v : Word) : (s.writeReg r v).N = s.N := by cases r <;> rfl
@[simp] theorem State.writeReg_C (r : RegSel) (v : Word) : (s.writeReg r v).C = s.C := by cases r <;> rfl
@[simp] theorem State.writeReg_IE (r : RegSel) (v : Word) : (s.writeReg r v).IE = s.IE := by cases r <;> rfl
@[simp] theorem State.writeReg_HALT (r : RegSel) (v : Word) : (s.writeReg r v).HALT = s.HALT := by cases r <;> rfl
@[simp] theorem State.writeReg_M (r : RegSel) (v : Word) : (s.writeReg r v).M = s.M := by cases r <;> rfl
@[simp] theorem State.writeReg_ERR (r : RegSel) (v : Word) : (s.writeReg r v).ERR = s.ERR := by cases r <;> rfl
@[simp] theorem State.writeReg_indexReg_X (v : Word) : (s.writeReg .indexReg v).X = v := rfl
@[simp] theorem State.writeReg_indexReg_A (v : Word) : (s.writeReg .indexReg v).A = s.A := rfl
@[simp] theorem State.writeReg_accumulator_A (v : Word) : (s.writeReg .accumulator v).A = v := rfl
@[simp] theorem State.writeReg_accumulator_X (v : Word) : (s.writeReg .accumulator v).X = s.X := rfl
@[simp] theorem State.readReg_indexReg : s.readReg .indexReg = s.X := rfl
@[simp] theorem State.readReg_accumulator : s.readReg .accumulator = s.A := rfl

/-- A written register reads as what was written. -/
@[simp] theorem State.readReg_writeReg_same (r : RegSel) (v : Word) : (s.writeReg r v).readReg r = v := by
  cases r <;> rfl

/-- The register that is not selected keeps its value (R22). -/
theorem State.readReg_writeReg_other {r q : RegSel} (h : q ≠ r) (v : Word) :
    (s.writeReg r v).readReg q = s.readReg q := by
  cases r <;> cases q <;> first | rfl | exact absurd rfl h

/-- A state with the same ten components is the same state. -/
theorem State.ext_fields {s t : State} (hX : s.X = t.X) (hA : s.A = t.A) (hpc : s.pc = t.pc) (hZ : s.Z = t.Z)
    (hN : s.N = t.N) (hC : s.C = t.C) (hIE : s.IE = t.IE) (hHALT : s.HALT = t.HALT) (hM : s.M = t.M)
    (hERR : s.ERR = t.ERR) : s = t := by
  cases s; cases t; simp_all

end Sys2Proof.Machine
end

