-- ==== Sys2Proof/Laws/Ops.lean ====
section
/-!
SUPPORT. What each shared operation can do, said once: the accesses and the resolver under each policy, the frame of a
step, and that `step` is the parametrised step at the spec's configuration.
-/
namespace Sys2Proof.Machine

/-! ### Under wrap no access fails (R52, R53, R137) -/

theorem checkAddr_wrap {cfg : Config} (h : cfg.oorPolicy = .wrap) (addr : Word) :
    checkAddr cfg addr = .ok (physIndex addr) := by
  simp [checkAddr, h]

theorem memRead_wrap {cfg : Config} (h : cfg.oorPolicy = .wrap) (m : Memory) (addr : Word) :
    memRead cfg m addr = .ok (m.read (physIndex addr)) := by
  simp [memRead, checkAddr_wrap h]

theorem memWrite_wrap {cfg : Config} (h : cfg.oorPolicy = .wrap) (m : Memory) (addr v : Word) :
    memWrite cfg m addr v = .ok (m.write (physIndex addr) v) := by
  simp [memWrite, checkAddr_wrap h]

theorem resolve_wrap {cfg : Config} (h : cfg.oorPolicy = .wrap) (s : State) (mode : AddrMode) (lit : BitVec 6) :
    resolve cfg s.M s.X mode lit = .ok (s.effAddr mode lit) := by
  cases mode <;> simp [resolve, State.effAddr, memRead_wrap h]

theorem State.withEa_wrap {cfg : Config} (h : cfg.oorPolicy = .wrap) (s : State) (mode : AddrMode) (lit : BitVec 6)
    (k : Word → State) : s.withEa cfg mode lit k = k (s.effAddr mode lit) := by
  simp [State.withEa, State.orReject, resolve_wrap h]

theorem State.discardEa_wrap {cfg : Config} (h : cfg.oorPolicy = .wrap) (s : State) (mode : AddrMode) (lit : BitVec 6)
    (k : State) : s.discardEa cfg mode lit k = k := by
  unfold State.discardEa
  split
  · exact State.withEa_wrap h s mode lit _
  · rfl

/-- The spec's configuration wraps (D1). -/
@[simp] theorem configuration_oorPolicy : configuration.oorPolicy = .wrap := by decide

/-- The spec's configuration samples the cleared flag (D6). -/
@[simp] theorem configuration_bzSample : configuration.bzSample = .afterClear := by decide

/-! ### Under reject an access succeeds exactly below 4096 (R184) -/

theorem checkAddr_ok {cfg : Config} {addr : Word} {a : Nat} (h : checkAddr cfg addr = .ok a) : a = physIndex addr := by
  unfold checkAddr at h
  split at h
  · exact (Except.ok.inj h).symm
  · split at h
    · next hlt => rw [← Except.ok.inj h, physIndex, Nat.mod_eq_of_lt hlt]
    · cases h

theorem checkAddr_error {cfg : Config} {addr bad : Word} (h : checkAddr cfg addr = .error bad) :
    cfg.oorPolicy = .reject ∧ bad = addr ∧ 4096 ≤ addr.toNat := by
  unfold checkAddr at h
  split at h
  · cases h
  · next hp =>
    split at h
    · cases h
    · next hlt => exact ⟨hp, (Except.error.inj h).symm, by omega⟩

/-- An access that answers a value answers the content of the physical cell, under either policy. -/
theorem memRead_ok {cfg : Config} {m : Memory} {addr v : Word} (h : memRead cfg m addr = .ok v) :
    v = m.read (physIndex addr) := by
  unfold memRead at h
  split at h
  · next ha => rw [← Except.ok.inj h, checkAddr_ok ha]
  · cases h

theorem memWrite_ok {cfg : Config} {m m' : Memory} {addr v : Word} (h : memWrite cfg m addr v = .ok m') :
    m' = m.write (physIndex addr) v := by
  unfold memWrite at h
  split at h
  · next ha => rw [← Except.ok.inj h, checkAddr_ok ha]
  · cases h

/-- The effective address, where the resolver gives one, does not depend on the policy. -/
theorem resolve_ok {cfg : Config} {s : State} {mode : AddrMode} {lit : BitVec 6} {ea : Word}
    (h : resolve cfg s.M s.X mode lit = .ok ea) : ea = s.effAddr mode lit := by
  cases mode with
  | direct => exact (Except.ok.inj h).symm
  | indirect => exact memRead_ok h
  | indexed => exact (Except.ok.inj h).symm
  | indirectIndexed => exact memRead_ok h

/-! ### One step -/

/-- Everything a step request can do, at any parameters. -/
theorem cycle_cases (cfg : Config) (run : Instr → State → Result) (s : State) :
    (s.stopped = true ∧ cycle cfg run s = .next s) ∨
    (s.stopped = false ∧ memRead cfg s.M s.pc = .ok s.wordAtPc ∧ cycle cfg run s = run (decode s.wordAtPc) s) ∨
    (s.stopped = false ∧ cfg.oorPolicy = .reject ∧ 4096 ≤ s.pc.toNat ∧
      cycle cfg run s = .next (s.takeError (.outOfRangeAddress s.pc none s.pc))) := by
  unfold cycle
  cases hs : s.stopped
  · right
    cases hr : memRead cfg s.M s.pc with
    | ok w =>
      left
      have := memRead_ok hr
      exact ⟨rfl, by rw [this]; rfl, by rw [this]; rfl⟩
    | error bad =>
      right
      unfold memRead at hr
      split at hr
      · cases hr
      · next ha =>
        obtain ⟨hp, hb, hge⟩ := checkAddr_error ha
        rw [Except.error.inj hr] at hb
        exact ⟨rfl, hp, hge, by rw [hb]; rfl⟩
  · left; exact ⟨rfl, rfl⟩

end Sys2Proof.Machine
end

