-- ==== Sys2Proof/Laws/PerInstr.lean ====
section
/-!
SUPPORT. One family of facts about every instruction as syntax, one lemma for each constructor.
-/
namespace Sys2Proof.Laws.EncodeSelectsRow

/-- The word of a well-formed instruction selects that instruction's row of the opcode map (R86, R87). -/
def Statement (i : Instr) : Prop :=
  i.wf = true → ∃ row ∈ opcodeTable, row.sel = i.sel ∧ row.selects (encode i) = true

theorem primary (n : Fin 7) (r : RegSel) (m : AddrMode) (l : BitVec 6) :
    encodeFields ⟨BitVec.ofNat 3 n, r.toBit, m.toBits, l⟩ &&& 0x0E00#16 = BitVec.ofNat 16 (n * 512) := by
  revert n l
  cases r <;> cases m <;> decide

theorem extended (n : Fin 3) (r : RegSel) (l : BitVec 6) :
    encodeFields ⟨7, r.toBit, BitVec.ofNat 2 n, l⟩ &&& 0x0EC0#16 = BitVec.ofNat 16 (0x0E00 + n * 64) := by
  revert n l
  cases r <;> decide

theorem store (r : RegSel) (m : AddrMode) (l : BitVec 6) : Statement (.store r m l) := fun _ =>
  ⟨⟨.STORE, 0x0000, 0x0E00⟩, by decide, rfl, beq_iff_eq.mpr (primary 0 r m l)⟩

theorem load (r : RegSel) (m : AddrMode) (l : BitVec 6) : Statement (.load r m l) := fun _ =>
  ⟨⟨.LOAD, 0x0200, 0x0E00⟩, by decide, rfl, beq_iff_eq.mpr (primary 1 r m l)⟩

theorem add (r : RegSel) (m : AddrMode) (l : BitVec 6) : Statement (.add r m l) := fun _ =>
  ⟨⟨.ADD, 0x0400, 0x0E00⟩, by decide, rfl, beq_iff_eq.mpr (primary 2 r m l)⟩

theorem branch (r : RegSel) (m : AddrMode) (l : BitVec 6) : Statement (.branch r m l) := fun _ =>
  ⟨⟨.BRANCH, 0x0600, 0x0E00⟩, by decide, rfl, beq_iff_eq.mpr (primary 3 r m l)⟩

theorem branchIfZero (r : RegSel) (m : AddrMode) (l : BitVec 6) : Statement (.branchIfZero r m l) := fun _ =>
  ⟨⟨.BRANCH_IF_ZERO, 0x0800, 0x0E00⟩, by decide, rfl, beq_iff_eq.mpr (primary 4 r m l)⟩

theorem clear (r : RegSel) (m : AddrMode) (l : BitVec 6) : Statement (.clear r m l) := fun _ =>
  ⟨⟨.CLEAR, 0x0A00, 0x0E00⟩, by decide, rfl, beq_iff_eq.mpr (primary 5 r m l)⟩

theorem decrement (r : RegSel) (m : AddrMode) (l : BitVec 6) : Statement (.decrement r m l) := fun _ =>
  ⟨⟨.DECREMENT, 0x0C00, 0x0E00⟩, by decide, rfl, beq_iff_eq.mpr (primary 6 r m l)⟩

theorem halt (r : RegSel) (l : BitVec 6) : Statement (.halt r l) := fun _ =>
  ⟨⟨.HALT, 0x0E00, 0x0EC0⟩, by decide, rfl, beq_iff_eq.mpr (extended 0 r l)⟩

theorem enableInterrupts (r : RegSel) (l : BitVec 6) : Statement (.enableInterrupts r l) := fun _ =>
  ⟨⟨.ENABLE_INT, 0x0E40, 0x0EC0⟩, by decide, rfl, beq_iff_eq.mpr (extended 1 r l)⟩

theorem disableInterrupts (r : RegSel) (l : BitVec 6) : Statement (.disableInterrupts r l) := fun _ =>
  ⟨⟨.DISABLE_INT, 0x0E80, 0x0EC0⟩, by decide, rfl, beq_iff_eq.mpr (extended 2 r l)⟩

theorem reserved (w : Word) : Statement (.reserved w) := fun h =>
  ⟨⟨.RESERVED, 0x0EC0, 0x0EC0⟩, by decide, rfl, h⟩

end Sys2Proof.Laws.EncodeSelectsRow
end

