-- ==== Sys2Proof/Tests/Slice0.lean ====
section
/-!
SUPPORT. Tests. Every expected value comes from the spec: the words are written out from spec/30_encoding.md R81, the
vectors are those of spec/95_test_vectors.md, named by their ids there. After them, one witness for the hypotheses of each
obligation.
-/
namespace Sys2Proof.Tests
open Sys2Proof Sys2Proof.Machine Sys2Proof.Machine.HostInterface

/-- The memory that holds the listed words. -/
def mem (cells : List (Nat × Word)) : Memory := cells.foldl (fun m c => m.write c.1 c.2) []

/-- The state one step leaves, if the step answers one. -/
def after (s : State) : Option State :=
  match step s with
  | .next t => some t
  | .fault _ => none
  | .refused _ => none

/-! ### WellFormed -/

theorem test_wf_reserved_accepts : (Instr.reserved 0xFFFF).wf = true := by decide
/-- A halt word is no reserved word. -/
theorem test_wf_reserved_refuses : (Instr.reserved 0x0E3F).wf = false := by decide
theorem test_wf_reserved_refuses_primary : (Instr.reserved 0x0CC0).wf = false := by decide

/-! ### Decoding: `hhhh ooo r mm llllll` -/

theorem test_decode_store : decode 0b0000000101001011#16 = .store .accumulator .indirect 11 := by decide
theorem test_decode_load : decode 0b0000001111000101#16 = .load .accumulator .indirectIndexed 5 := by decide
theorem test_decode_load_high_bits : decode 0x1234#16 = .load .indexReg .direct 52 := by decide
theorem test_decode_add : decode 0b0000010010000101#16 = .add .indexReg .indexed 5 := by decide
theorem test_decode_branch : decode 0b0000011011010110#16 = .branch .indexReg .indirectIndexed 22 := by decide
theorem test_decode_branchIfZero :
    decode 0b0000100111111111#16 = .branchIfZero .accumulator .indirectIndexed 63 := by decide
theorem test_decode_clear : decode 0b0000101100000000#16 = .clear .accumulator .direct 0 := by decide
theorem test_decode_decrement : decode 0b0000110100000000#16 = .decrement .accumulator .direct 0 := by decide
theorem test_decode_halt : decode 0b0000111100111111#16 = .halt .accumulator 63 := by decide
theorem test_decode_enableInterrupts : decode 0b0000111001000000#16 = .enableInterrupts .indexReg 0 := by decide
theorem test_decode_disableInterrupts : decode 0b0000111110111111#16 = .disableInterrupts .accumulator 63 := by decide
theorem test_decode_reserved : decode 0b1111111111111111#16 = .reserved 0xFFFF := by decide
/-- R87's worked encodings (spec/95_test_vectors.md V1). -/
theorem test_encode :
    encode (.load .accumulator .indirectIndexed 5) = 0x03C5 ∧ encode (.branch .indexReg .indirectIndexed 22) = 0x06D6 ∧
    encode (.enableInterrupts .indexReg 0) = 0x0E40 := by decide
theorem test_decodeTableWord :
    decodeTableWord 16 0x0C00 = some (.decrement .indexReg .direct 0) ∧ decodeTableWord 16 0x10000 = none := by decide
/-- No word selects two rows of the opcode map (R86): two rows differ in a bit both masks keep. -/
theorem test_opcode_rows_disjoint :
    opcodeTable.Pairwise fun r q => r.pattern &&& q.mask &&& r.mask ≠ q.pattern &&& q.mask &&& r.mask := by decide

/-! ### One step -/

/-- AM2: the pointer cell names the cell stored to. -/
theorem test_store_indirect :
    (after { State.reset with A := 0xBEEF, M := mem [(0, 0x014B), (11, 0x0020)] }).map
      (fun t => (t.M.read 32, t.M.read 11, t.pc)) = some (0xBEEF, 0x0020, 1) := by decide
/-- ST2: the zero flag is cleared. ST6: the address wraps modulo 4096. -/
theorem test_store_clears_Z_and_wraps :
    (after { State.reset with X := 0x00FF, Z := true, M := mem [(0, 0x0045), (5, 0x2003)] }).map
      (fun t => (t.M.read 3, t.Z)) = some (0x00FF, false) := by decide
/-- AM4: mode 3 adds the index before the lookup. -/
theorem test_load_indirect_indexed :
    (after { State.reset with X := 10, M := mem [(0, 0x03C5), (15, 42), (42, 0x00AB)] }).map
      (fun t => (t.A, t.Z, t.pc)) = some (0x00AB, false, 1) := by decide
/-- LD5: the address uses the old index register; a loaded 0 sets the zero flag. -/
theorem test_load_index_register_indexed :
    (after { State.reset with X := 1, M := mem [(0, 0x0285), (5, 9)] }).map (fun t => (t.X, t.Z)) = some (0, true) := by
  decide
/-- ADD1: 65535 + 1 wraps to 0; the carry flag stays 0. -/
theorem test_add_wraps :
    (after { State.reset with A := 0xFFFF, M := mem [(0, 0x0510), (16, 1)] }).map (fun t => (t.A, t.Z, t.C)) =
      some (0, true, false) := by decide
/-- ADD6: the old index register is address and addend. -/
theorem test_add_index_register_indexed :
    (after { State.reset with X := 5, M := mem [(0, 0x0485), (10, 7)] }).map (fun t => (t.X, t.Z)) =
      some (12, false) := by decide
/-- BR7: all 16 bits of `ea` go to `pc`. -/
theorem test_branch_keeps_16_bits :
    (after { State.reset with Z := true, M := mem [(0, 0x0645), (5, 0x1005)] }).map (fun t => (t.pc, t.Z)) =
      some (0x1005, false) := by decide
/-- BZ2, the spec's default. -/
theorem test_branchIfZero_falls_through :
    (after { State.reset with pc := 3, Z := true, M := mem [(3, 0x0814)] }).map (fun t => (t.pc, t.Z)) =
      some (4, false) := by decide
/-- BZ2, the alternative before_clear. -/
theorem test_branchIfZero_before_clear :
    (execWith { configuration with bzSample := .beforeClear } (.branchIfZero .indexReg .direct 20)
      { State.reset with pc := 3, Z := true }).pc = 20 := by decide
/-- CLR3: mode and literal are ignored. -/
theorem test_clear_ignores_mode :
    (after { State.reset with A := 0x5678, X := 0xFFF0, M := mem [(0, 0x0BFF)] }).map (fun t => (t.A, t.X, t.Z, t.pc)) =
      some (0, 0xFFF0, true, 1) := by decide
/-- DEC1: 0 wraps to 65535. -/
theorem test_decrement_wraps :
    (after { State.reset with M := mem [(0, 0x0D00)] }).map (fun t => (t.A, t.X, t.Z)) =
      some (0xFFFF, 0, false) := by decide
/-- DEC5: 1 goes to 0 and sets the zero flag. -/
theorem test_decrement_to_zero :
    (after { State.reset with X := 1, M := mem [(0, 0x0CFF)] }).map (fun t => (t.X, t.Z)) = some (0, true) := by decide
/-- HLT1. -/
theorem test_halt_stays :
    (after { State.reset with pc := 7, Z := true, M := mem [(7, 0x0E00)] }).map (fun t => (t.HALT, t.Z, t.pc)) =
      some (true, false, 7) := by decide
/-- EI3. -/
theorem test_enableInterrupts :
    (after { State.reset with M := mem [(0, 0x0F7F)] }).map (fun t => (t.IE, t.pc)) = some (true, 1) := by decide
/-- DI3. -/
theorem test_disableInterrupts :
    (after { State.reset with IE := true, X := 9, M := mem [(0, 0x0FBF)] }).map (fun t => (t.IE, t.X, t.pc)) =
      some (false, 9, 1) := by decide
/-- ERR1: nothing but the latch changes. -/
theorem test_reserved_latches :
    after { State.reset with pc := 2, Z := true, A := 7, M := mem [(2, 0x0EC0)] } =
      some { State.reset with
        pc := 2, Z := true, A := 7, M := mem [(2, 0x0EC0)], ERR := some (.decodeError 2 0x0EC0) } := by decide
/-- PC3: fetch at 65535 reads cell 4095, and `pc` wraps to 0. -/
theorem test_pc_wraps :
    (after { State.reset with pc := 0xFFFF, M := mem [(4095, 0x0D00)] }).map (fun t => (t.A, t.pc)) =
      some (0xFFFF, 0) := by decide
/-- P4 under `OOR_POLICY = reject`: the store at 0x1020 latches OutOfRangeAddress and writes nothing. -/
theorem test_reject_store :
    execWith { configuration with oorPolicy := .reject } (.store .accumulator .indirect 11)
        { State.reset with pc := 2, A := 0x0E00, M := mem [(2, 0x014B), (11, 0x1020)] } =
      { State.reset with
        pc := 2, A := 0x0E00, M := mem [(2, 0x014B), (11, 0x1020)]
        ERR := some (.outOfRangeAddress 2 (some 0x014B) 0x1020) } := by decide
/-- AM4 through the eight units. -/
theorem test_units_load :
    (Units.composedStep .afterClear { State.reset with X := 10, M := mem [(0, 0x03C5), (15, 42), (42, 0x00AB)] }).A =
      0x00AB := by decide

/-! ### The host interface -/

/-- E9: a halt at 0 takes one step of any larger budget, and a second call takes none. -/
theorem test_run_until_halt :
    (runUntilHalt 3 { State.reset with M := mem [(0, 0x0E00)] }).steps = 1 ∧
    (runUntilHalt 3 { State.reset with HALT := true, M := mem [(0, 0x0E00)] }).steps = 0 := by decide
/-- R206: a comment, a literal with comma and comment, a blank line, a decimal literal wrapped to 16 bits. -/
theorem test_loader_listing :
    Loader.loadSource (some [[';', ' ', 'a'], ['0', 'x', '0', 'D', '0', '0', ',', ' ', '/', '/', 'b'], [' '],
      ['6', '5', '5', '3', '7']]) = .ok [0x0D00, 1] := by rfl
theorem test_loader_unsettled : Loader.loadSource (some [['-', '1']]) = .error .unsettledLine := by rfl
/-- N20 leaves octal open; the model reads a leading zero as decimal (log 11). -/
theorem test_loader_leading_zero : Loader.loadSource (some [['0', '1', '0']]) = .ok [10] := by rfl
/-- R207, R209: a run of limit 0 makes no step, so a load is still offered after it. -/
theorem test_load_after_a_run_of_no_step :
    (act (.load (some [['7']])) (act (.runUntilHalt 0) Session.created).1).2 = .done := by rfl
/-- R212: no load once a run has started. -/
theorem test_no_load_after_start : (act (.load none) ⟨State.reset, .started⟩).2 = .notOffered := by decide

/-! ### Witnesses for the hypotheses of the obligations -/

/-- A halted state that a run reaches: a halt word at `pc`. -/
def haltedState : State := { State.reset with HALT := true, M := mem [(0, 0x0E00)] }
/-- A state in error that a run reaches: the reserved word at `pc`. -/
def errorState : State := { State.reset with ERR := some (.decodeError 0 0xFEC0), M := mem [(0, 0xFEC0)] }
/-- A running state about to store `A` into the next instruction's cell. -/
def storingState : State := { State.reset with A := 0x0E00, M := mem [(0, 0x0101)] }
/-- The spec's parameters but for the policy reject. -/
def rejecting : Config := { configuration with oorPolicy := .reject }

theorem witness_StepRunsTheDecodedInstruction : State.reset.HALT = false ∧ State.reset.ERR = none := by decide
theorem witness_StoppedCoreIgnoresStepRequests :
    (haltedState.HALT = true ∧ haltedState.ERR = none) ∧ errorState.ERR ≠ none := by decide
theorem witness_StoppedConditionIsSticky : haltedState.stopped = true ∧ errorState.stopped = true := by decide
theorem witness_LoadReplacesTheSelectedRegister :
    (0x0101 : Word) = storingState.M.read ((storingState.effAddr .direct 0).toNat % 4096) := by decide
theorem witness_AddGivesTheWrappedSum :
    (0x0F01 : Word).toNat = ((if RegSel.accumulator = .accumulator then storingState.A else storingState.X).toNat
      + (storingState.M.read ((storingState.effAddr .direct 0).toNat % 4096)).toNat) % 65536 := by decide
theorem witness_BranchLoadsTheWholeEffectiveAddress :
    exec (.branch .indexReg .direct 5) State.reset = .next { State.reset with pc := 5 } := by rfl
theorem witness_BranchIfZeroBeforeClear :
    { configuration with bzSample := .beforeClear }.oorPolicy = .wrap ∧
    { configuration with bzSample := .beforeClear }.bzSample = .beforeClear := by decide
/-- Both branches of the result: the old value 0, and another. -/
theorem witness_DecrementSubtractsOne :
    ((0 : Word) = (if RegSel.indexReg = .accumulator then storingState.A else storingState.X) ∧
      (0xFFFF : Word).toNat = (if (0 : Word).toNat = 0 then 65535 else (0 : Word).toNat - 1)) ∧
    (0x0E00 : Word) = (if RegSel.accumulator = .accumulator then storingState.A else storingState.X) ∧
      (0x0DFF : Word).toNat = (if (0x0E00 : Word).toNat = 0 then 65535 else (0x0E00 : Word).toNat - 1) := by decide
theorem witness_HaltStopsAtItself : State.reset.ERR = none ∧ (0xFE3F : Word) &&& 0x0EC0#16 = 0x0E00#16 := by decide
theorem witness_EnableInterruptsSetsIE : (0x0F7F : Word) &&& 0x0EC0#16 = 0x0E40#16 := by decide
theorem witness_DisableInterruptsClearsIE : (0x0FBF : Word) &&& 0x0EC0#16 = 0x0E80#16 := by decide
theorem witness_ReservedEncodingLatchesDecodeError :
    ∃ s : State, s.HALT = false ∧ s.ERR = none ∧ s.M.read (s.pc.toNat % 4096) = 0xFEC0 ∧
      (0xFEC0 : Word) &&& 0x0EC0#16 = 0x0EC0#16 := ⟨{ State.reset with M := mem [(0, 0xFEC0)] }, by decide⟩
theorem witness_RegisterWritersFrame (i : Instr)
    (h : i = .load .indexReg .direct 1 ∨ i = .add .accumulator .indexed 1 ∨ i = .clear .indexReg .direct 0 ∨
      i = .decrement .accumulator .direct 0) : ∃ t, exec i storingState = .next t := by
  rcases h with rfl | rfl | rfl | rfl <;> exact ⟨_, rfl⟩
theorem witness_StoreFrame : ∃ t, exec (.store .accumulator .direct 1) storingState = .next t := ⟨_, rfl⟩
theorem witness_ControlFrame (i : Instr)
    (h : i = .branch .indexReg .indirect 1 ∨ i = .branchIfZero .indexReg .indexed 1 ∨ i = .halt .indexReg 0 ∨
      i = .enableInterrupts .indexReg 0 ∨ i = .disableInterrupts .indexReg 0) : ∃ t, exec i storingState = .next t := by
  rcases h with rfl | rfl | rfl | rfl | rfl <;> exact ⟨_, rfl⟩
/-- For the statements whose hypothesis is that a step answers a next state: OnlyStoreChangesMemory, InertFlagWriters,
StopConditionWriters, InertFlagsInfluenceNothing; stopped, and running. -/
theorem witness_step_answers : (∃ t, step haltedState = .next t) ∧ ∃ t, step storingState = .next t :=
  ⟨⟨_, rfl⟩, ⟨_, rfl⟩⟩
theorem witness_ZeroFlagAfterEachInstruction : ∃ t, exec (.clear .indexReg .direct 0) State.reset = .next t := ⟨_, rfl⟩
theorem witness_StoredZeroFlagIsNeverRead :
    storingState.stopped = false ∧ storingState.wordAtPc &&& 0x0EC0#16 ≠ 0x0EC0#16 := by decide
theorem witness_OtherStepsAdvanceByOne :
    (storingState.stopped = false ∧ (decode storingState.wordAtPc).sel ≠ .BRANCH ∧
      (decode storingState.wordAtPc).sel ≠ .HALT ∧ (decode storingState.wordAtPc).sel ≠ .RESERVED) ∧
    ∃ t, step storingState = .next t := ⟨by decide, ⟨_, rfl⟩⟩
theorem witness_PcAboveMemoryExecutesTheSameInstruction :
    (0x1000 : Word).toNat % 4096 = storingState.pc.toNat % 4096 ∧ ∃ t, step storingState = .next t :=
  ⟨by decide, ⟨_, rfl⟩⟩
theorem witness_StoreIsSeenByTheNextFetch :
    (storingState.stopped = false ∧ decode storingState.wordAtPc = .store .accumulator .direct 1 ∧
      (storingState.effAddr .direct 1).toNat % 4096 = (storingState.pc.toNat + 1) % 4096) ∧
    ∃ t, step storingState = .next t := ⟨by decide, ⟨_, rfl⟩⟩
theorem witness_ReexecutingHaltChangesNothing :
    haltedState.HALT = true ∧ haltedState.Z = false ∧ haltedState.wordAtPc &&& 0x0EC0#16 = 0x0E00#16 := by decide
/-- Each clause of the invariant that has a premise, at a state that meets it. -/
theorem witness_StepKeepsTheInvariant :
    (ReachableInv storingState ∧ ∃ t, step storingState = .next t) ∧ ReachableInv haltedState ∧
      ReachableInv errorState := by
  refine ⟨⟨⟨rfl, rfl, by decide, ?_, ?_⟩, ⟨_, rfl⟩⟩, ⟨rfl, rfl, by decide, ?_, ?_⟩, ⟨rfl, rfl, by decide, ?_, ?_⟩⟩
  · intro p w h; cases h
  · intro p w a h; cases h
  · intro p w h; cases h
  · intro p w a h; cases h
  · intro p w h; cases h; decide
  · intro p w a h; cases h
theorem witness_StepKeepsMemoryCanonical : storingState.M.wf = true ∧ ∃ t, step storingState = .next t :=
  ⟨by decide, ⟨_, rfl⟩⟩
/-- A one-word program that halts at once. -/
theorem witness_ReachableStatesAndRunEnds : Reachable (Loader.launch [0x0E00]) ∧
    EndsAt (Loader.launch [0x0E00]) { Loader.launch [0x0E00] with HALT := true } :=
  ⟨.launch _, 1, by decide, rfl, rfl, by decide⟩
theorem witness_EightUnitsComposeToTheStep : configuration.oorPolicy = .wrap := by decide
theorem witness_DecodeOfEncode :
    (Instr.load .indexReg .indexed 63).wf = true ∧ (Instr.reserved 0xFEC0).wf = true := by decide
theorem witness_IgnoredFieldsMakeNoDifference : (0x0A00 : Word) &&& 0x0EC0#16 ≠ 0x0EC0#16 := by decide
/-- Each clause: a cleared zero flag at a branch-if-zero, and a set one at another instruction. -/
theorem witness_BranchIfZeroReadingsAgree :
    { State.reset with M := mem [(0, 0x0805)] }.Z = false ∧
    (decode { State.reset with Z := true, M := mem [(0, 0x0101)] }.wordAtPc).sel ≠ .BRANCH_IF_ZERO := by decide
theorem witness_RejectDiffersOnlyByTheError : rejecting.oorPolicy = .reject := by decide
theorem witness_RejectStopsDataAccessAboveMemory :
    rejecting.oorPolicy = .reject ∧
    (match resolve rejecting (mem [(11, 0x1000)]) 0 .indirect 11 with
      | .ok ea => decide (ea = 0x1000 ∧ 4096 ≤ ea.toNat)
      | .error _ => false) = true := by decide
theorem witness_RejectStopsFetchAndPointerAboveMemory :
    rejecting.oorPolicy = .reject ∧ { State.reset with pc := 0x1000 }.stopped = false ∧ 4096 ≤ (0x1000 : Word).toNat ∧
    (0x1000 : Word).toNat = ((1 : BitVec 6).toNat + (0x0FFF : Word).toNat) % 65536 ∧
    rejecting.readUnusedPointer = true ∧ (fields 0xFEC1).lit = 1 := by decide
theorem witness_DiscardedPointerReadIsUnobservable : configuration.oorPolicy = .wrap := by decide
theorem witness_LoaderKeepsToCapacity : Loader.loadSource (some [['7']]) = .ok [7] ∧ Action.step ≠ .reset ∧
    Action.step ≠ .observe := ⟨rfl, by decide, by decide⟩
theorem witness_HostMayLoadUntilTheFirstStep : Loader.loadSource (some [['7']]) = .ok [7] ∧
    State.reset.stopped = false ∧ Stage.fresh ≠ .loadFailed := ⟨rfl, by decide, by decide⟩
/-- A one-word program that is the reserved word. -/
theorem witness_FailingRunEndsAtAReservedWord :
    FailsAt (Loader.launch [0xFEC0]) { Loader.launch [0xFEC0] with ERR := some (.decodeError 0 0xFEC0) } :=
  ⟨1, by decide, rfl, by decide⟩
theorem witness_HostOnlyStepsAStartedRun : (Session.mk State.reset .started).stage = .started := by decide

end Sys2Proof.Tests
end

section
/-!
SUPPORT. What each instruction does under wrap, as an equation between states; what a step request does; and how the
decoder tells the extended instructions by the mask of R86. Every equation is stated at any configuration with
`OOR_POLICY = wrap`, of which the spec's configuration is one, so it serves `step` and `stepWith` alike.
-/
namespace Sys2Proof.Machine

/-! ### The instructions under wrap (R140 to R181) -/

section
variable {cfg : Config} (s : State) (rs : RegSel) (mode : AddrMode) (lit : BitVec 6)

@[simp] theorem execWith_store (h : cfg.oorPolicy = .wrap) :
    execWith cfg (.store rs mode lit) s =
      (s.clearZ.setM (s.M.write (physIndex (s.effAddr mode lit)) (s.readReg rs))).advance := by
  simp [execWith, storeWith, State.withEa_wrap h, memWrite_wrap h, State.orReject]

@[simp] theorem execWith_load (h : cfg.oorPolicy = .wrap) :
    execWith cfg (.load rs mode lit) s =
      ((s.clearZ.writeReg rs (s.M.read (physIndex (s.effAddr mode lit)))).setZ
        (isZero (s.M.read (physIndex (s.effAddr mode lit))))).advance := by
  simp [execWith, loadWith, State.withEa_wrap h, memRead_wrap h, State.orReject]

@[simp] theorem execWith_add (h : cfg.oorPolicy = .wrap) :
    execWith cfg (.add rs mode lit) s =
      ((s.clearZ.writeReg rs (s.readReg rs + s.M.read (physIndex (s.effAddr mode lit)))).setZ
        (isZero (s.readReg rs + s.M.read (physIndex (s.effAddr mode lit))))).advance := by
  simp [execWith, addWith, State.withEa_wrap h, memRead_wrap h, State.orReject]

@[simp] theorem execWith_branch (h : cfg.oorPolicy = .wrap) :
    execWith cfg (.branch rs mode lit) s = s.clearZ.setPc (s.effAddr mode lit) :=
  State.withEa_wrap h s mode lit _

@[simp] theorem execWith_branchIfZero (h : cfg.oorPolicy = .wrap) :
    execWith cfg (.branchIfZero rs mode lit) s =
      s.clearZ.setPc (if zeroTest cfg s then s.effAddr mode lit else s.pc + 1) := by
  simp only [execWith, branchIfZeroWith, State.withEa_wrap h]
  split <;> rfl

@[simp] theorem execWith_clear (h : cfg.oorPolicy = .wrap) :
    execWith cfg (.clear rs mode lit) s = ((s.clearZ.writeReg rs 0).setZ true).advance :=
  State.discardEa_wrap h s mode lit _

@[simp] theorem execWith_decrement (h : cfg.oorPolicy = .wrap) :
    execWith cfg (.decrement rs mode lit) s =
      ((s.clearZ.writeReg rs (s.readReg rs - 1)).setZ (isZero (s.readReg rs - 1))).advance :=
  State.discardEa_wrap h s mode lit _

@[simp] theorem execWith_halt (h : cfg.oorPolicy = .wrap) :
    execWith cfg (.halt rs lit) s = s.clearZ.setHALT true :=
  State.discardEa_wrap h s .direct lit _

@[simp] theorem execWith_enableInterrupts (h : cfg.oorPolicy = .wrap) :
    execWith cfg (.enableInterrupts rs lit) s = (s.clearZ.setIE true).advance :=
  State.discardEa_wrap h s .indirect lit _

@[simp] theorem execWith_disableInterrupts (h : cfg.oorPolicy = .wrap) :
    execWith cfg (.disableInterrupts rs lit) s = (s.clearZ.setIE false).advance :=
  State.discardEa_wrap h s .indexed lit _

@[simp] theorem execWith_reserved (h : cfg.oorPolicy = .wrap) (w : Word) :
    execWith cfg (.reserved w) s = s.takeError (.decodeError s.pc w) :=
  State.discardEa_wrap h s .indirectIndexed (fields w).lit _

/-- Under after_clear the value branch-if-zero tests is the cleared flag (R153, D6). -/
@[simp] theorem zeroTest_afterClear (h : cfg.bzSample = .afterClear) : zeroTest cfg s = false := by
  simp [zeroTest, h]

end

/-- `exec` is `execWith` at the spec's configuration. -/
theorem exec_eq_execWith (i : Instr) (s : State) : exec i s = .next (execWith configuration i s) := by
  cases i <;> rfl

theorem eq_execWith_of_exec {i : Instr} {s t : State} (h : exec i s = .next t) : t = execWith configuration i s := by
  rw [exec_eq_execWith] at h
  exact (Host.Outcome.next.inj h).symm

/-! ### What an instruction writes, field by field -/

theorem State.writeReg_X (s : State) (r : RegSel) (v : Word) :
    (s.writeReg r v).X = if r = .indexReg then v else s.X := by cases r <;> rfl

theorem State.writeReg_A (s : State) (r : RegSel) (v : Word) :
    (s.writeReg r v).A = if r = .accumulator then v else s.A := by cases r <;> rfl

section
variable {cfg : Config} (h : cfg.oorPolicy = .wrap) (i : Instr) (s : State)
include h

/-- No instruction writes `N` (R30). -/
@[simp] theorem execWith_N : (execWith cfg i s).N = s.N := by cases i <;> simp [h]

/-- No instruction writes `C` (R31). -/
@[simp] theorem execWith_C : (execWith cfg i s).C = s.C := by cases i <;> simp [h]

/-- `IE` has two writers (R32). -/
theorem execWith_IE :
    (execWith cfg i s).IE = if i.sel = .ENABLE_INT then true else if i.sel = .DISABLE_INT then false else s.IE := by
  cases i <;> simp [h, Instr.sel]

/-- `HALT` has one writer (R33). -/
theorem execWith_HALT : (execWith cfg i s).HALT = (s.HALT || decide (i.sel = .HALT)) := by
  cases i <;> simp [h, Instr.sel]

/-- Only the reserved encoding writes the latch (R35). -/
theorem execWith_ERR_of_ne_RESERVED (hi : i.sel ≠ .RESERVED) : (execWith cfg i s).ERR = s.ERR := by
  cases i with
  | reserved w => exact absurd rfl hi
  | _ => simp [h]

/-- Where `pc` goes unless the instruction is a branch, a halt or the reserved encoding (R26). -/
theorem execWith_pc (hbz : zeroTest cfg s = false) (hb : i.sel ≠ .BRANCH) (hh : i.sel ≠ .HALT)
    (hr : i.sel ≠ .RESERVED) : (execWith cfg i s).pc = s.pc + 1 := by
  cases i with
  | branch => exact absurd rfl hb
  | halt => exact absurd rfl hh
  | reserved => exact absurd rfl hr
  | _ => simp [h, hbz]

end

/-- The four instructions that write a register have one shape: a result goes to the selected register, the zero flag
tells whether it is 0, and `pc` advances (R141, R142, R160, R161). -/
theorem execWith_registerWriter {cfg : Config} (h : cfg.oorPolicy = .wrap) {i : Instr} {rs : RegSel} {mode : AddrMode}
    {lit : BitVec 6} (s : State)
    (hi : i = .load rs mode lit ∨ i = .add rs mode lit ∨ i = .clear rs mode lit ∨ i = .decrement rs mode lit) :
    ∃ v, execWith cfg i s = ((s.clearZ.writeReg rs v).setZ (isZero v)).advance := by
  rcases hi with rfl | rfl | rfl | rfl
  · exact ⟨_, execWith_load s rs mode lit h⟩
  · exact ⟨_, execWith_add s rs mode lit h⟩
  · exact ⟨0, execWith_clear s rs mode lit h⟩
  · exact ⟨_, execWith_decrement s rs mode lit h⟩

theorem execWith_of_HALT {cfg : Config} (h : cfg.oorPolicy = .wrap) {i : Instr} (s : State) (hi : i.sel = .HALT) :
    execWith cfg i s = s.clearZ.setHALT true := by
  cases i with
  | halt rs lit => exact execWith_halt s rs lit h
  | _ => cases hi

/-! ### One step request -/

theorem step_of_stopped {s : State} (h : s.stopped = true) : step s = .next s := by
  simp [step, cycle, h]

theorem step_of_running {s : State} (h : s.stopped = false) :
    step s = .next (execWith configuration (decode s.wordAtPc) s) := by
  simp [step, cycle, h, memRead_wrap, exec_eq_execWith, State.wordAtPc]

/-- Everything a step can do: nothing on a stopped core, else the instruction at `pc` (R115, R121). -/
theorem step_cases {s t : State} (h : step s = .next t) :
    (s.stopped = true ∧ t = s) ∨
    (s.stopped = false ∧ t = execWith configuration (decode s.wordAtPc) s) := by
  cases hs : s.stopped with
  | true => exact .inl ⟨rfl, by simpa [step_of_stopped hs] using h.symm⟩
  | false => exact .inr ⟨rfl, by simpa [step_of_running hs] using h.symm⟩

theorem State.stopped_eq_false_iff (s : State) : s.stopped = false ↔ s.HALT = false ∧ s.ERR = none := by
  simp [State.stopped]

/-- A step answers a next state in every state (R120), the one `afterStep` takes. -/
theorem step_eq_afterStep (s : State) : step s = .next (HostInterface.afterStep s) := by
  cases hs : s.stopped with
  | true => simp [HostInterface.afterStep, step_of_stopped hs]
  | false => simp [HostInterface.afterStep, step_of_running hs]

/-! ### The decoder and the masks of the opcode map (R86, R90) -/

/-- The mask of the extended rows keeps `op` and `mode`. -/
theorem and_extendedMask (w : Word) :
    w &&& 0x0EC0#16 = (zext16 (fields w).op <<< 9) ||| (zext16 (fields w).mode <<< 6) := by
  apply BitVec.eq_of_getLsbD_eq
  intro k hk
  interval_cases k <;> simp [zext16, fields]

/-- The entry of the secondary table that an extended instruction is (R104). -/
theorem sel_decodeExtended (f : Fields) (w : Word) :
    (decodeExtended f w).sel = Units.secondaryTable.getD f.mode.toNat .RESERVED := by
  obtain ⟨op, rs, mode, lit⟩ := f
  have hmode : ∀ b : BitVec 2, b = 0 ∨ b = 1 ∨ b = 2 ∨ b = 3 := by decide
  rcases hmode mode with rfl | rfl | rfl | rfl <;> rfl

/-- The table entry of a decoded instruction is the one the dispatch tables give (R104). -/
theorem sel_decodePrimary (f : Fields) (w : Word) :
    (decodePrimary f w).sel = Units.dispatchMux f.op (f.op == 7) f.mode := by
  obtain ⟨op, rs, mode, lit⟩ := f
  have hop : ∀ b : BitVec 3, b = 0 ∨ b = 1 ∨ b = 2 ∨ b = 3 ∨ b = 4 ∨ b = 5 ∨ b = 6 ∨ b = 7 := by decide
  rcases hop op with rfl | rfl | rfl | rfl | rfl | rfl | rfl | rfl
  case inr.inr.inr.inr.inr.inr.inr => exact sel_decodeExtended ⟨7, rs, mode, lit⟩ w
  all_goals rfl

/-- Entry `k` of the secondary table is told by the mask: the words with `(w AND 0x0EC0) == 0x0E00 + 0x40 k`. -/
theorem sel_decode_extended_iff (w : Word) (k : Fin 4) :
    (decode w).sel = Units.secondaryTable[k] ↔ w &&& 0x0EC0#16 = BitVec.ofNat 16 (0x0E00 + 0x40 * k) := by
  rw [decode, sel_decodePrimary, and_extendedMask]
  generalize (fields w).op = op
  generalize (fields w).mode = mode
  revert op mode k
  decide

theorem sel_decode_HALT_iff (w : Word) : (decode w).sel = .HALT ↔ w &&& 0x0EC0#16 = 0x0E00#16 :=
  sel_decode_extended_iff w 0

theorem sel_decode_ENABLE_INT_iff (w : Word) : (decode w).sel = .ENABLE_INT ↔ w &&& 0x0EC0#16 = 0x0E40#16 :=
  sel_decode_extended_iff w 1

theorem sel_decode_DISABLE_INT_iff (w : Word) : (decode w).sel = .DISABLE_INT ↔ w &&& 0x0EC0#16 = 0x0E80#16 :=
  sel_decode_extended_iff w 2

theorem sel_decode_RESERVED_iff (w : Word) : (decode w).sel = .RESERVED ↔ w &&& 0x0EC0#16 = 0x0EC0#16 :=
  sel_decode_extended_iff w 3

theorem decodeExtended_eq_reserved {f : Fields} {w : Word} :
    (decodeExtended f w).sel = .RESERVED → decodeExtended f w = .reserved w := by
  unfold decodeExtended
  split
  case h_4 => exact fun _ => rfl
  all_goals exact nofun

theorem decodePrimary_eq_reserved {f : Fields} {w : Word} :
    (decodePrimary f w).sel = .RESERVED → decodePrimary f w = .reserved w := by
  unfold decodePrimary
  split
  case h_8 => exact decodeExtended_eq_reserved
  all_goals exact nofun

/-- The reserved encoding keeps the word it was decoded from (R90). -/
theorem decode_eq_reserved {w : Word} (h : (decode w).sel = .RESERVED) : decode w = .reserved w :=
  decodePrimary_eq_reserved h

end Sys2Proof.Machine
end

section
/-!
The statements of the family on the state: the invariants of R41, the frames and the flags.
-/
namespace Sys2Proof.Machine

/-! ### The invariants of reachable states (R41) -/

/-- What the step of a running core does to the two stop conditions: a halt word sets HALT, the reserved word the latch,
and any other word neither, each told by its mask (R33, R35). -/
theorem step_of_running_cases {s t : State} (hs : s.stopped = false) (h : step s = .next t) :
    (s.wordAtPc &&& 0x0EC0#16 = 0x0E00#16 ∧ t = s.clearZ.setHALT true) ∨
    (s.wordAtPc &&& 0x0EC0#16 = 0x0EC0#16 ∧ t = s.takeError (.decodeError s.pc s.wordAtPc)) ∨
    (s.wordAtPc &&& 0x0EC0#16 ≠ 0x0E00#16 ∧ s.wordAtPc &&& 0x0EC0#16 ≠ 0x0EC0#16 ∧
      t.HALT = false ∧ t.ERR = none) := by
  rw [ne_eq, ne_eq, ← sel_decode_HALT_iff, ← sel_decode_RESERVED_iff]
  obtain ⟨hstop, -⟩ | ⟨-, rfl⟩ := step_cases h
  · simp [hs] at hstop
  obtain ⟨hHALT, hERR⟩ := s.stopped_eq_false_iff.mp hs
  by_cases hh : (decode s.wordAtPc).sel = .HALT
  · exact .inl ⟨hh, execWith_of_HALT configuration_oorPolicy s hh⟩
  by_cases hr : (decode s.wordAtPc).sel = .RESERVED
  · exact .inr (.inl ⟨hr, by simp [decode_eq_reserved hr]⟩)
  · refine .inr (.inr ⟨hh, hr, ?_, ?_⟩)
    · simp [execWith_HALT, hHALT, hh]
    · rw [execWith_ERR_of_ne_RESERVED configuration_oorPolicy _ _ hr, hERR]

/-- `N` is written by no step (R30). -/
theorem step_N {s t : State} (h : step s = .next t) : t.N = s.N := by
  obtain ⟨-, rfl⟩ | ⟨-, rfl⟩ := step_cases h
  · rfl
  · simp

/-- `C` is written by no step (R31). -/
theorem step_C {s t : State} (h : step s = .next t) : t.C = s.C := by
  obtain ⟨-, rfl⟩ | ⟨-, rfl⟩ := step_cases h
  · rfl
  · simp

/-- On a running core the clauses of R41 on the stop conditions are empty. -/
theorem reachableInv_of_running {s : State} (hN : s.N = false) (hC : s.C = false) (hHALT : s.HALT = false)
    (hERR : s.ERR = none) : ReachableInv s where
  negativeClear := hN
  carryClear := hC
  halted h := by simp [hHALT] at h
  inError p w h := by simp [hERR] at h
  neverOutOfRange p w a := by simp [hERR]

/-- Settles O33: a stopped core keeps its state; a running one comes to a halt word, to the reserved word, or runs on. -/
theorem stepKeepsTheInvariant : Obligations.StepKeepsTheInvariant := by
  intro s t hinv h
  have hN : t.N = false := (step_N h).trans hinv.negativeClear
  have hC : t.C = false := (step_C h).trans hinv.carryClear
  obtain ⟨-, rfl⟩ | ⟨hs, -⟩ := step_cases h
  · exact hinv
  obtain ⟨hHALT, hERR⟩ := s.stopped_eq_false_iff.mp hs
  obtain ⟨hw, rfl⟩ | ⟨hw, rfl⟩ | ⟨-, -, hHALT', hERR'⟩ := step_of_running_cases hs h
  · exact ⟨hN, hC, fun _ => ⟨rfl, hw, hERR⟩, by simp [hERR], by simp [hERR]⟩
  · refine ⟨hN, hC, by simp [hHALT], fun p w he => ?_, by simp⟩
    obtain ⟨rfl, rfl⟩ : s.pc = p ∧ s.wordAtPc = w := by simpa using he
    exact ⟨rfl, hHALT, rfl, hw⟩
  · exact reachableInv_of_running hN hC hHALT' hERR'

/-- Settles O32: both states run, with `N` and `C` at reset. -/
theorem launchStatesHaveTheInvariant : Obligations.LaunchStatesHaveTheInvariant :=
  ⟨reachableInv_of_running rfl rfl rfl rfl, fun ws =>
    ⟨reachableInv_of_running rfl rfl rfl rfl, Loader.loadInto_wf ws Memory.wf_nil⟩⟩

/-- The launch states meet R41's invariants and every step keeps them. -/
theorem Reachable.inv {s : State} (h : Reachable s) : ReachableInv s := by
  induction h with
  | launch ws => exact (launchStatesHaveTheInvariant.2 ws).1
  | step _ hstep ih => exact stepKeepsTheInvariant _ _ ih hstep

theorem Reachable.stepN {s : State} (h : Reachable s) (n : Nat) : Reachable (stepN n s) := by
  induction n generalizing s with
  | zero => exact h
  | succ n ih => exact ih (h.step (step_eq_afterStep s))

/-- Settles O35: the end of a run is a reachable state, so the invariants of R41 hold there, its halted clause among
them. -/
theorem reachableStatesAndRunEnds : Obligations.ReachableStatesAndRunEnds := by
  refine ⟨fun s => Reachable.inv, fun ws t hend => ?_⟩
  obtain ⟨n, rfl, hHALT, hERR, -⟩ := hend
  have hinv := ((Reachable.launch ws).stepN n).inv
  obtain ⟨hZ, hw, -⟩ := hinv.halted hHALT
  exact ⟨hZ, hHALT, hinv.negativeClear, hinv.carryClear, hERR, hw⟩

/-! ### Who writes the flags and the latch (R29 to R35) -/

/-- Settles O23: `IE` follows the instruction executed, which the masks name. -/
theorem inertFlagWriters : Obligations.InertFlagWriters := by
  intro s t h
  refine ⟨step_N h, step_C h, ?_⟩
  obtain ⟨hs, rfl⟩ | ⟨hs, rfl⟩ := step_cases h
  · simp [hs]
  · simp [hs, execWith_IE, sel_decode_ENABLE_INT_iff, sel_decode_DISABLE_INT_iff]

/-- Settles O24: a running core has HALT 0 and an empty latch, and its word is a halt, the reserved word or another. -/
theorem stopConditionWriters : Obligations.StopConditionWriters := by
  intro s t h
  obtain ⟨hs, rfl⟩ | ⟨hs, -⟩ := step_cases h
  · simp [hs]
  obtain ⟨hHALT, hERR⟩ := s.stopped_eq_false_iff.mp hs
  obtain ⟨hw, rfl⟩ | ⟨hw, rfl⟩ | ⟨hh, hr, hHALT', hERR'⟩ := step_of_running_cases hs h
  · simp [hs, hw]
  · simp [hs, hw, hHALT]
  · simp [hh, hr, hHALT, hERR, hHALT', hERR']

/-- The zero flag after an instruction that writes a register tells whether that register is 0 (R29). -/
theorem exec_registerWriter_Z {i : Instr} {rs : RegSel} {mode : AddrMode} {lit : BitVec 6} {s t : State}
    (hi : i = .load rs mode lit ∨ i = .add rs mode lit ∨ i = .clear rs mode lit ∨ i = .decrement rs mode lit)
    (h : exec i s = .next t) : t.Z = decide ((if rs = .accumulator then t.A else t.X) = 0) := by
  obtain ⟨v, hv⟩ := execWith_registerWriter configuration_oorPolicy s hi
  rw [eq_execWith_of_exec h, hv]
  cases rs <;> rfl

/-- Settles O25: row by row of R29's table. -/
theorem zeroFlagAfterEachInstruction : Obligations.ZeroFlagAfterEachInstruction := by
  intro i s t h
  cases i with
  | load => exact exec_registerWriter_Z (.inl rfl) h
  | add => exact exec_registerWriter_Z (.inr (.inl rfl)) h
  | decrement => exact exec_registerWriter_Z (.inr (.inr (.inr rfl))) h
  | _ => simp [eq_execWith_of_exec h]

/-! ### Frames and the program counter -/

/-- Settles O19: the common shape of the four register writers touches the selected register, `Z` and `pc`. -/
theorem registerWritersFrame : Obligations.RegisterWritersFrame := by
  intro rs mode lit s t i hi h
  obtain ⟨v, hv⟩ := execWith_registerWriter configuration_oorPolicy s hi
  rw [eq_execWith_of_exec h, hv]
  refine ⟨?_, ?_, by simp, by simp, by simp, by simp, by simp, by simp⟩
  · rintro rfl; simp
  · rintro rfl; simp

/-- Settles O28: under after_clear branch-if-zero advances too (D6). -/
theorem otherStepsAdvanceByOne : Obligations.OtherStepsAdvanceByOne := by
  intro s t hs h hb hh hr
  obtain ⟨hstop, -⟩ | ⟨-, rfl⟩ := step_cases h
  · simp [hs] at hstop
  · rw [execWith_pc configuration_oorPolicy _ s (by simp) hb hh hr]
    exact BitVec.toNat_add s.pc 1

/-! ### The same instruction at another `pc` (R27, R52) -/

section
variable (s : State) (p q : Word)

@[simp] theorem State.setPc_setPc : (s.setPc q).setPc p = s.setPc p := rfl
@[simp] theorem State.advance_setPc : (s.setPc q).advance = s.setPc (q + 1) := rfl
@[simp] theorem State.setPc_advance : s.advance.setPc p = s.setPc p := rfl
@[simp] theorem State.setZ_setPc (b : Bool) : (s.setPc q).setZ b = (s.setZ b).setPc q := rfl
@[simp] theorem State.clearZ_setPc : (s.setPc q).clearZ = s.clearZ.setPc q := rfl
@[simp] theorem State.setIE_setPc (b : Bool) : (s.setPc q).setIE b = (s.setIE b).setPc q := rfl
@[simp] theorem State.setHALT_setPc (b : Bool) : (s.setPc q).setHALT b = (s.setHALT b).setPc q := rfl
@[simp] theorem State.setM_setPc (m : Memory) : (s.setPc q).setM m = (s.setM m).setPc q := rfl

@[simp] theorem State.writeReg_setPc (r : RegSel) (v : Word) : (s.setPc q).writeReg r v = (s.writeReg r v).setPc q := by
  cases r <;> rfl

@[simp] theorem State.readReg_setPc (r : RegSel) : (s.setPc q).readReg r = s.readReg r := by
  cases r <;> rfl

@[simp] theorem State.effAddr_setPc (mode : AddrMode) (lit : BitVec 6) :
    (s.setPc q).effAddr mode lit = s.effAddr mode lit := by
  cases mode <;> rfl

@[simp] theorem zeroTest_setPc (cfg : Config) : zeroTest cfg (s.setPc q) = zeroTest cfg s := rfl

/-- The fetch sees `pc` only modulo 4096 (D1, D2). -/
theorem State.wordAtPc_setPc (hq : q.toNat % 4096 = s.pc.toNat % 4096) : (s.setPc q).wordAtPc = s.wordAtPc := by
  simp [State.wordAtPc, physIndex, hq]

/-- An instruction other than the reserved encoding sees `pc` only to compute the next `pc`. -/
theorem execWith_setPc {cfg : Config} (h : cfg.oorPolicy = .wrap) {i : Instr} (hi : i.sel ≠ .RESERVED) :
    execWith cfg i (s.setPc q) = (execWith cfg i s).setPc (execWith cfg i (s.setPc q)).pc := by
  cases i with
  | reserved => exact absurd rfl hi
  | _ => simp [h]

end

/-- Settles O29: at the other `pc` the same word is fetched, and its instruction writes `pc` into the next `pc` or, the
reserved encoding, into the latch. -/
theorem pcAboveMemoryExecutesTheSameInstruction : Obligations.PcAboveMemoryExecutesTheSameInstruction := by
  intro s t q hq h
  change ∃ t', step (s.setPc q) = .next t' ∧ _
  obtain ⟨hs, rfl⟩ | ⟨hs, rfl⟩ := step_cases h
  · exact ⟨t.setPc q, step_of_stopped hs, by simp⟩
  refine ⟨_, step_of_running hs, ?_⟩
  rw [State.wordAtPc_setPc s q hq]
  by_cases hr : (decode s.wordAtPc).sel = .RESERVED
  · simp [decode_eq_reserved hr]
  · rw [execWith_setPc s q configuration_oorPolicy hr]
    simp

end Sys2Proof.Machine
end

section
/-!
The statements of the family on memory: who writes a cell, when a store is seen, the canonical form, the discarded pointer
read and the host's moves.
-/
namespace Sys2Proof.Machine

/-! ### Who writes memory (R53, R59) -/

theorem execWith_M_of_ne_STORE {cfg : Config} (h : cfg.oorPolicy = .wrap) {i : Instr} (s : State)
    (hi : i.sel ≠ .STORE) : (execWith cfg i s).M = s.M := by
  cases i with
  | store => exact absurd rfl hi
  | _ => simp [h]

/-- What one instruction does to memory: a store writes the selected register into its cell, and every other instruction
keeps the memory. -/
theorem execWith_M_cases {cfg : Config} (h : cfg.oorPolicy = .wrap) (i : Instr) (s : State) :
    (execWith cfg i s).M = s.M ∨
    ∃ rs mode lit, i = .store rs mode lit ∧
      (execWith cfg i s).M = s.M.write (physIndex (s.effAddr mode lit)) (s.readReg rs) := by
  cases i with
  | store rs mode lit => exact .inr ⟨rs, mode, lit, rfl, by simp [h]⟩
  | _ => exact .inl (execWith_M_of_ne_STORE h s nofun)

/-- What one step does to memory: nothing, unless a running core fetched a store. -/
theorem step_M_cases {s t : State} (h : step s = .next t) :
    t.M = s.M ∨
    ∃ rs mode lit, s.stopped = false ∧ decode s.wordAtPc = .store rs mode lit ∧
      t.M = s.M.write (physIndex (s.effAddr mode lit)) (s.readReg rs) := by
  obtain ⟨-, rfl⟩ | ⟨hs, rfl⟩ := step_cases h
  · exact .inl rfl
  obtain hM | ⟨rs, mode, lit, hi, hM⟩ := execWith_M_cases configuration_oorPolicy (decode s.wordAtPc) s
  · exact .inl hM
  · exact .inr ⟨rs, mode, lit, hs, hi, hM⟩

/-- Settles O22: a memory write changes no cell but its own. -/
theorem onlyStoreChangesMemory : Obligations.OnlyStoreChangesMemory := by
  intro s t h
  obtain hM | ⟨rs, mode, lit, hs, hi, hM⟩ := step_M_cases h
  · exact .inl fun a => by rw [hM]
  · exact .inr ⟨rs, mode, lit, hs, hi, fun a ha => by rw [hM]; exact Memory.read_write_other s.M _ ha⟩

/-- Settles O34: the one write a step makes is at a physical index. -/
theorem stepKeepsMemoryCanonical : Obligations.StepKeepsMemoryCanonical := by
  intro s t hwf h
  obtain hM | ⟨rs, mode, lit, -, -, hM⟩ := step_M_cases h
  · rwa [hM]
  · rw [hM]; exact Memory.write_wf hwf (physIndex_lt _)

/-! ### A store into the next instruction's cell (R65) -/

theorem State.readReg_eq_ite (s : State) (rs : RegSel) :
    s.readReg rs = if rs = .accumulator then s.A else s.X := by cases rs <;> rfl

/-- 65536 is a multiple of 4096, so the wrap of `pc` at 16 bits does not show in the cell it names (D1, D2). -/
theorem physIndex_add_one (p : Word) : physIndex (p + 1) = (p.toNat + 1) % 4096 := by
  rw [physIndex, BitVec.toNat_add]
  exact Nat.mod_mod_of_dvd _ (by decide)

/-- Settles O30: after the store the core still runs, and the cell `pc` names is the one just written. -/
theorem storeIsSeenByTheNextFetch : Obligations.StoreIsSeenByTheNextFetch := by
  intro s t rs mode lit hs hi h hcell
  obtain ⟨hstop, -⟩ | ⟨-, ht⟩ := step_cases h
  · simp [hs] at hstop
  rw [hi, execWith_store s rs mode lit configuration_oorPolicy] at ht
  have hrun : t.stopped = false := by
    rw [State.stopped_eq_false_iff] at hs ⊢
    simpa [ht] using hs
  have hpc : physIndex t.pc = physIndex (s.effAddr mode lit) := by
    rw [ht, State.advance_pc, State.setM_pc, State.clearZ_pc, physIndex_add_one, ← hcell, physIndex]
  have hword : t.wordAtPc = s.readReg rs := by
    rw [State.wordAtPc, hpc, ht, State.advance_M, State.setM_M, Memory.read_write_same]
  rw [step_of_running hrun, ← exec_eq_execWith, hword, State.readReg_eq_ite]

/-! ### The discarded pointer read (R58, R59, D14) -/

theorem zeroTest_congr {cfg cfg' : Config} (hbz : cfg'.bzSample = cfg.bzSample) (s : State) :
    zeroTest cfg' s = zeroTest cfg s := by
  rw [zeroTest, zeroTest, hbz]

/-- Under wrap an instruction depends on one parameter only, the zero value that branch-if-zero samples. -/
theorem execWith_congr_of_wrap {cfg cfg' : Config} (h : cfg.oorPolicy = .wrap) (h' : cfg'.oorPolicy = .wrap)
    (hbz : cfg'.bzSample = cfg.bzSample) (i : Instr) (s : State) : execWith cfg' i s = execWith cfg i s := by
  cases i with
  | branchIfZero => simp [h, h', zeroTest_congr hbz]
  | _ => simp [h, h']

/-- Under wrap a step request is the instruction at `pc` on a running core and nothing on a stopped one (R115, R121). -/
theorem stepWith_wrap {cfg : Config} (h : cfg.oorPolicy = .wrap) (s : State) :
    stepWith cfg s = .next (if s.stopped then s else execWith cfg (decode s.wordAtPc) s) := by
  obtain ⟨hs, heq⟩ | ⟨hs, -, heq⟩ | ⟨-, hp, -⟩ :=
    cycle_cases cfg (fun i t => .next (execWith cfg i t)) s
  · rw [stepWith, heq, if_pos hs]
  · rw [stepWith, heq, hs]; rfl
  · simp [h] at hp

/-- Settles O47: the flag is neither the policy nor the sampled zero value. -/
theorem discardedPointerReadIsUnobservable : Obligations.DiscardedPointerReadIsUnobservable := by
  intro cfg b s h
  have h' : { cfg with readUnusedPointer := b }.oorPolicy = .wrap := h
  rw [stepWith_wrap h, stepWith_wrap h', execWith_congr_of_wrap h h' rfl]

/-! ### The host's moves on a started run (R67, R209, R212) -/

namespace HostInterface

/-- The state a run leaves is that of the steps it made beyond the `n` it began with. -/
theorem runFrom_final (limit n : Nat) (s : State) :
    (runFrom limit n s).final = stepN ((runFrom limit n s).steps - n) s := by
  induction limit generalizing n s with
  | zero => simp [runFrom, stepN]
  | succ limit ih =>
    unfold runFrom
    split
    · simp [stepN]
    · have hle := runFrom_steps_le limit (n + 1) (afterStep s)
      rw [ih, ← stepN]
      congr 1
      omega

theorem runUntilHalt_final (limit : Nat) (s : State) :
    (runUntilHalt limit s).final = stepN (runUntilHalt limit s).steps s :=
  runFrom_final limit 0 s

/-- In a started session every move but reset leaves a started session whose core some number of steps gives. -/
theorem act_started {a : Action} (ha : a ≠ .reset) {h : Session}
    (hs : h.stage = .started) : ∃ n, (act a h).1 = ⟨stepN n h.core, .started⟩ := by
  obtain ⟨c, st⟩ := h
  obtain rfl : st = .started := hs
  cases a with
  | reset => exact absurd rfl ha
  | load source => exact ⟨0, rfl⟩
  | observe => exact ⟨0, rfl⟩
  | step => exact ⟨1, Session.afterSteps_started rfl _ _⟩
  | runUntilHalt limit =>
    refine ⟨(runUntilHalt limit c).steps, (Session.afterSteps_started rfl _ _).trans ?_⟩
    rw [runUntilHalt_final]

end HostInterface

/-- Settles O52: reset gives the created session, and every other move some number of steps. -/
theorem hostOnlyStepsAStartedRun : Obligations.HostOnlyStepsAStartedRun := by
  intro a h hs
  by_cases ha : a = .reset
  · exact .inl ⟨ha, by rw [ha]; rfl⟩
  · obtain ⟨n, hn⟩ := HostInterface.act_started ha hs
    exact .inr ⟨by rw [hn], n, by rw [hn]⟩

end Sys2Proof.Machine
end

section
/-!
The statements of the family on the encoding: words and their fields, the two round trips between words and instructions,
the opcode map, and the bits that make no difference.
-/
namespace Sys2Proof.Machine

/-! ### Words and their fields (R81, R82, R87) -/

/-- Settles O39: bit by bit, each field of the built word is read where `encodeFields` shifted it to. -/
theorem fieldsOfABuiltWord : Obligations.FieldsOfABuiltWord := by
  rintro ⟨op, rs, mode, lit⟩ h
  rw [fields, Fields.mk.injEq]
  refine ⟨?_, ?_, ?_, ?_⟩ <;>
    (apply BitVec.eq_of_getLsbD_eq
     intro k hk
     interval_cases k <;> simp [encodeFields, zext16])

@[simp] theorem fields_encodeFields (f : Fields) : fields (encodeFields f) = f := by
  simpa [zext16] using fieldsOfABuiltWord f 0

/-- The word built from the fields of `w` is `w` without bits 15:12 (D3). -/
theorem encodeFields_fields (w : Word) : encodeFields (fields w) = w &&& 0x0FFF#16 := by
  apply BitVec.eq_of_getLsbD_eq
  intro k hk
  interval_cases k <;> simp [encodeFields, zext16, fields]

/-! ### The operand fields (R84, R85) -/

@[simp] theorem RegSel.ofBit_toBit (r : RegSel) : RegSel.ofBit r.toBit = r := by
  cases r <;> rfl

@[simp] theorem RegSel.toBit_ofBit (b : BitVec 1) : (RegSel.ofBit b).toBit = b := by
  revert b; decide

@[simp] theorem AddrMode.ofBits_toBits (m : AddrMode) : AddrMode.ofBits m.toBits = m := by
  cases m <;> rfl

@[simp] theorem AddrMode.toBits_ofBits (b : BitVec 2) : (AddrMode.ofBits b).toBits = b := by
  revert b; decide

/-! ### Round trips (R82, R87, R89) -/

theorem wf_of_sel_ne_RESERVED {i : Instr} (h : i.sel ≠ .RESERVED) : i.wf = true := by
  cases i with
  | reserved => exact absurd rfl h
  | _ => rfl

/-- Settles O37: the reserved encoding is told by its mask, and each other instruction by the fields of its word. -/
theorem decodeOfEncode : Obligations.DecodeOfEncode := by
  intro i hwf
  cases i with
  | reserved w => exact decode_eq_reserved ((sel_decode_RESERVED_iff w).mpr (beq_iff_eq.mp hwf))
  | _ => simp [decode, encode, decodePrimary, decodeExtended]

/-- Encoding undoes the secondary table. -/
theorem encode_decodeExtended (rs : BitVec 1) (mode : BitVec 2) (lit : BitVec 6) (w : Word)
    (h : (decodeExtended ⟨7, rs, mode, lit⟩ w).sel ≠ .RESERVED) :
    encode (decodeExtended ⟨7, rs, mode, lit⟩ w) = encodeFields ⟨7, rs, mode, lit⟩ := by
  have hmode : ∀ b : BitVec 2, b = 0 ∨ b = 1 ∨ b = 2 ∨ b = 3 := by decide
  rcases hmode mode with rfl | rfl | rfl | rfl
  case inr.inr.inr => exact absurd rfl h
  all_goals simp [decodeExtended, encode]

theorem encode_decodePrimary {f : Fields} {w : Word} (h : (decodePrimary f w).sel ≠ .RESERVED) :
    encode (decodePrimary f w) = encodeFields f := by
  obtain ⟨op, rs, mode, lit⟩ := f
  have hop : ∀ b : BitVec 3, b = 0 ∨ b = 1 ∨ b = 2 ∨ b = 3 ∨ b = 4 ∨ b = 5 ∨ b = 6 ∨ b = 7 := by decide
  rcases hop op with rfl | rfl | rfl | rfl | rfl | rfl | rfl | rfl
  case inr.inr.inr.inr.inr.inr.inr => exact encode_decodeExtended rs mode lit w h
  all_goals simp [decodePrimary, encode]

theorem encode_decode_of_ne_RESERVED {w : Word} (h : w &&& 0x0EC0#16 ≠ 0x0EC0#16) :
    encode (decode w) = w &&& 0x0FFF#16 := by
  rw [← encodeFields_fields]
  exact encode_decodePrimary ((sel_decode_RESERVED_iff w).not.mpr h)

theorem decode_wf (w : Word) : (decode w).wf = true := by
  by_cases h : (decode w).sel = .RESERVED
  · rw [decode_eq_reserved h]
    exact beq_iff_eq.mpr ((sel_decode_RESERVED_iff w).mp h)
  · exact wf_of_sel_ne_RESERVED h

/-- Settles O38: the reserved encoding keeps its word, and every other word is rebuilt from its fields. -/
theorem encodeOfDecode : Obligations.EncodeOfDecode := by
  intro w
  refine ⟨decode_wf w, ?_⟩
  split
  · next h => rw [decode_eq_reserved ((sel_decode_RESERVED_iff w).mpr h), encode]
  · next h => exact encode_decode_of_ne_RESERVED h

/-! ### The opcode map (R86) -/

/-- No row of the opcode map asks for more than `op` and `mode`. -/
theorem OpcodeRow.selects_and_extendedMask {row : OpcodeRow} (hrow : row ∈ opcodeTable) (w : Word) :
    row.selects (w &&& 0x0EC0#16) = row.selects w := by
  have hmask : ∀ r ∈ opcodeTable, 0x0EC0#16 &&& r.mask = r.mask := by decide
  rw [OpcodeRow.selects, BitVec.and_assoc, hmask row hrow, OpcodeRow.selects]

/-- A row of the opcode map selects exactly the words that decode to its entry of the dispatch tables. -/
theorem OpcodeRow.selects_iff {row : OpcodeRow} (hrow : row ∈ opcodeTable) (w : Word) :
    row.selects w = true ↔ row.sel = (decode w).sel := by
  rw [← OpcodeRow.selects_and_extendedMask hrow, and_extendedMask, decode, sel_decodePrimary]
  generalize (fields w).op = op
  generalize (fields w).mode = mode
  revert row op mode
  decide

theorem exists_opcodeRow (sel : Sel) : ∃ row ∈ opcodeTable, row.sel = sel := by
  cases sel <;> decide

theorem opcodeRow_eq_of_sel_eq :
    ∀ row ∈ opcodeTable, ∀ other ∈ opcodeTable, other.sel = row.sel → other = row := by decide

/-- Settles O40: the row is the one of the decoded instruction's entry, and no two rows share an entry. -/
theorem oneOpcodeRowSelectsEachWord : Obligations.OneOpcodeRowSelectsEachWord := by
  intro w
  obtain ⟨row, hrow, hsel⟩ := exists_opcodeRow (decode w).sel
  refine ⟨row, hrow, (OpcodeRow.selects_iff hrow w).mpr hsel, hsel, fun other hother h => ?_⟩
  exact opcodeRow_eq_of_sel_eq row hrow other hother (((OpcodeRow.selects_iff hother w).mp h).trans hsel.symm)

/-! ### Bits that make no difference (R82, R89, D3) -/

/-- A word that is not reserved decodes by its low twelve bits: encoding loses nothing else. -/
theorem decode_and_fieldMask {w : Word} (h : w &&& 0x0EC0#16 ≠ 0x0EC0#16) : decode (w &&& 0x0FFF#16) = decode w := by
  rw [← encode_decode_of_ne_RESERVED h, decodeOfEncode _ (decode_wf w)]

theorem xor_highBits_and_fieldMask (w : Word) (h : BitVec 4) :
    (w ^^^ (zext16 h <<< 12)) &&& 0x0FFF#16 = w &&& 0x0FFF#16 := by
  apply BitVec.eq_of_getLsbD_eq
  intro k hk
  interval_cases k <;> simp [zext16]

theorem decode_xor_highBits {w : Word} (h : BitVec 4) (hw : w &&& 0x0EC0#16 ≠ 0x0EC0#16) :
    decode (w ^^^ (zext16 h <<< 12)) = decode w := by
  have hmask (v : Word) : v &&& 0x0EC0#16 = v &&& 0x0FFF#16 &&& 0x0EC0#16 := by rw [BitVec.and_assoc]; rfl
  have hw' : (w ^^^ (zext16 h <<< 12)) &&& 0x0EC0#16 ≠ 0x0EC0#16 := by
    rwa [hmask, xor_highBits_and_fieldMask, ← hmask]
  rw [← decode_and_fieldMask hw', xor_highBits_and_fieldMask, decode_and_fieldMask hw]

/-- Settles O41: bits 15:12 go nowhere in the decoder, and the equation of each instruction under wrap does not mention
its ignored fields. -/
theorem ignoredFieldsMakeNoDifference : Obligations.IgnoredFieldsMakeNoDifference := by
  refine ⟨fun w h hw => decode_xor_highBits h hw, fun r r' m m' l l' s => ?_⟩
  simp only [exec_eq_execWith, configuration_oorPolicy, execWith_branch, execWith_branchIfZero, execWith_clear,
    execWith_decrement, execWith_halt, execWith_enableInterrupts, execWith_disableInterrupts, and_self]

/-- Settles O42, by running the decoder on the eight words. -/
theorem knownWordsDecode : Obligations.KnownWordsDecode := by
  unfold Obligations.KnownWordsDecode
  decide

end Sys2Proof.Machine
end

section
/-!
The statements of the family on the step: what a step request does on a running and on a stopped core, that it always
answers a next state, and that the eight units compose to it.
-/
namespace Sys2Proof.Machine

/-! ### The step of a running core (R101, R115, R120) -/

theorem step_eq_stepWith (s : State) : step s = stepWith configuration s := by
  have hexec : exec = fun i t => .next (execWith configuration i t) := funext₂ exec_eq_execWith
  rw [step, stepWith, hexec]

/-- Settles O5: both branches of a step request answer a next state, and `exec` is `execWith` at the spec's
configuration. -/
theorem stepIsTotal : Obligations.StepIsTotal := fun s => ⟨⟨_, step_eq_afterStep s⟩, step_eq_stepWith s⟩

/-- A running core executes the instruction at `pc`, through the dispatch of `exec`. -/
theorem step_eq_exec_of_running {s : State} (h : s.stopped = false) : step s = exec (decode s.wordAtPc) s := by
  rw [step_of_running h, exec_eq_execWith]

/-- The word placed for the next fetch is the word that the fetch reads (log 12). -/
@[simp] theorem State.wordAtPc_placeWord (s : State) (w : Word) : (s.placeWord w).wordAtPc = w :=
  Memory.read_write_same s.M (physIndex s.pc) w

/-- Settles O2: the fetch under wrap reads the word at `pc`, and placing a word there does not stop the core. -/
theorem stepRunsTheDecodedInstruction : Obligations.StepRunsTheDecodedInstruction := by
  intro s hHALT hERR
  have hs : s.stopped = false := s.stopped_eq_false_iff.mpr ⟨hHALT, hERR⟩
  refine ⟨step_eq_exec_of_running hs, fun nbits w => ?_⟩
  have hs' : (s.withFetchWord nbits w).stopped = false := hs
  rw [step_eq_exec_of_running hs', State.withFetchWord, State.wordAtPc_placeWord]

/-! ### A stopped core (R121, R122, R182) -/

theorem State.stopped_eq_true_iff (s : State) : s.stopped = true ↔ s.HALT = true ∨ s.ERR ≠ none := by
  simp [State.stopped, Option.isSome_iff_ne_none]

namespace HostInterface

theorem afterStep_of_stopped {s : State} (h : s.stopped = true) : afterStep s = s := by
  rw [afterStep, step_of_stopped h]

/-- `run_until_halt` on a stopped core makes no step beyond those already made (R209). -/
theorem runFrom_of_stopped {s : State} (h : s.stopped = true) (limit n : Nat) :
    runFrom limit n s = ⟨report s, n, s⟩ := by
  cases limit with
  | zero => rfl
  | succ limit => rw [runFrom, if_pos h]

end HostInterface

theorem stepN_of_stopped {s : State} (h : s.stopped = true) (n : Nat) : stepN n s = s := by
  induction n with
  | zero => rfl
  | succ n ih => rw [stepN, HostInterface.afterStep_of_stopped h, ih]

theorem core_run_of_stopped {s : State} (h : s.stopped = true) (n : Nat) : core.run n s = .next s := by
  have hstep : core.step s = .next s := step_of_stopped h
  induction n with
  | zero => rfl
  | succ n ih => simpa only [Host.Core.run, hstep] using ih

/-- Settles O3: either stop condition makes the request a no-op, and the report tests the latch first (log 6). -/
theorem stoppedCoreIgnoresStepRequests : Obligations.StoppedCoreIgnoresStepRequests := by
  intro s
  refine ⟨fun h => step_of_stopped (s.stopped_eq_true_iff.mpr h), fun hHALT hERR => ?_, fun hERR => ?_⟩
  · have hs : s.stopped = true := s.stopped_eq_true_iff.mpr (.inl hHALT)
    simp [HostInterface.hostStep, HostInterface.afterStep_of_stopped hs, HostInterface.report, hERR, hHALT]
  · have hs : s.stopped = true := s.stopped_eq_true_iff.mpr (.inr hERR)
    simp [HostInterface.hostStep, HostInterface.afterStep_of_stopped hs, HostInterface.report,
      Option.isSome_iff_ne_none, hERR]

/-- Settles O4: each step of the run leaves the stopped core as it is, and `run_until_halt` asks for none. -/
theorem stoppedConditionIsSticky : Obligations.StoppedConditionIsSticky := by
  intro s n hs
  rw [HostInterface.runUntilHalt, HostInterface.runFrom_of_stopped hs]
  exact ⟨stepN_of_stopped hs n, core_run_of_stopped hs n, rfl, rfl⟩

/-- A halt writes nothing that a halted state with a cleared zero flag does not hold already (R170). -/
theorem State.clearZ_setHALT_of_halted {s : State} (hHALT : s.HALT = true) (hZ : s.Z = false) :
    s.clearZ.setHALT true = s := by
  apply State.ext_fields <;> simp [hHALT, hZ]

/-- Settles O31: the word at `pc` decodes to a halt, told by its mask. -/
theorem reexecutingHaltChangesNothing : Obligations.ReexecutingHaltChangesNothing := by
  intro s hHALT hZ hw
  have hsel : (decode s.wordAtPc).sel = .HALT := (sel_decode_HALT_iff _).mpr hw
  rw [exec_eq_execWith, execWith_of_HALT configuration_oorPolicy s hsel, State.clearZ_setHALT_of_halted hHALT hZ]

/-! ### The eight units (R101 to R110, D7) -/

namespace Units

/-! #### What one unit gives, in the terms of the model -/

/-- The twelve address bits of the load/store unit are the address modulo 4096 (R107, D1). -/
theorem toNat_extractLsb'_twelve (addr : Word) : (addr.extractLsb' 0 12).toNat = physIndex addr := by
  simp [physIndex]

theorem loadStoreRead_eq (m : Memory) (addr : Word) : loadStoreRead m addr = m.read (physIndex addr) := by
  rw [loadStoreRead, toNat_extractLsb'_twelve]

theorem loadStoreWrite_eq (m : Memory) (wr : Bool) (addr v : Word) :
    loadStoreWrite m wr addr v = if wr then m.write (physIndex addr) v else m := by
  rw [loadStoreWrite, toNat_extractLsb'_twelve]

theorem fetchUnit_eq (s : State) : fetchUnit s.M s.pc = s.wordAtPc := loadStoreRead_eq s.M s.pc

theorem resolver_eq (s : State) (mode : BitVec 2) (lit : BitVec 6) :
    resolver s.M mode lit s.X = s.effAddr (.ofBits mode) lit := by
  have hmode : ∀ b : BitVec 2, b = 0 ∨ b = 1 ∨ b = 2 ∨ b = 3 := by decide
  rcases hmode mode with rfl | rfl | rfl | rfl <;>
    simp [resolver, State.effAddr, AddrMode.ofBits, loadStoreRead_eq]

theorem regFileRead_eq (s : State) (rs : BitVec 1) : regFileRead s.X s.A rs = s.readReg (.ofBit rs) := by
  have hrs : ∀ b : BitVec 1, b = 0 ∨ b = 1 := by decide
  rcases hrs rs with rfl | rfl <;> rfl

theorem regFileNext_eq (s : State) (rs : BitVec 1) (we : Bool) (v : Word) :
    regFileNext s.X s.A rs we v =
      ((if we then s.writeReg (.ofBit rs) v else s).X, (if we then s.writeReg (.ofBit rs) v else s).A) := by
  have hrs : ∀ b : BitVec 1, b = 0 ∨ b = 1 := by decide
  rcases hrs rs with rfl | rfl <;> cases we <;> rfl

/-! #### The units after the decoder, for each output of the dispatch tables -/

/-- What the connections of R109 leave of `s` after the dispatch and the resolver, with the register file and the
load/store unit in the terms of the model: `sel` is the selected entry, `r` the selected register, `ea` the effective
address and `ir` the fetched word. `composedStep_of_running` ties it to the units. -/
def dispatched (sample : BzSample) (sel : Sel) (r : RegSel) (ea ir : Word) (s : State) : State :=
  let result := aluResult sel (s.readReg r) (s.M.read (physIndex ea))
  let regs := if writeEnable sel then s.writeReg r result else s
  { s with
    X := regs.X
    A := regs.A
    pc := nextPc sel s.pc ea (ztest sample s.Z)
    Z := nextZ sel result s.Z
    IE := nextIE sel s.IE
    HALT := nextHALT sel s.HALT
    M := if sel = .STORE then s.M.write (physIndex ea) (s.readReg r) else s.M
    ERR := nextERR sel s.pc ir s.ERR }

theorem composedStep_of_stopped (sample : BzSample) {s : State} (h : s.stopped = true) : composedStep sample s = s :=
  if_pos h

/-- On a running core the decoder and the dispatch tables give the fields and the table entry of the fetched word. -/
theorem composedStep_of_running (sample : BzSample) {s : State} (h : s.stopped = false) :
    composedStep sample s =
      dispatched sample (decode s.wordAtPc).sel (.ofBit (fields s.wordAtPc).rs)
        (s.effAddr (.ofBits (fields s.wordAtPc).mode) (fields s.wordAtPc).lit) s.wordAtPc s := by
  have hstop : (s.HALT || s.ERR.isSome) = false := h
  rw [composedStep, hstop, fetchUnit_eq, decode, sel_decodePrimary, ← resolver_eq]
  simp only [loadStoreRead_eq, loadStoreWrite_eq, regFileRead_eq, regFileNext_eq, decide_eq_true_eq]
  rfl

/-- The units after the decoder execute the instruction that the secondary table gives. -/
theorem dispatched_decodeExtended {cfg : Config} (h : cfg.oorPolicy = .wrap) (f : Fields) (r : RegSel) (ea w : Word)
    (s : State) :
    dispatched cfg.bzSample (decodeExtended f w).sel r ea w s = execWith cfg (decodeExtended f w) s := by
  unfold decodeExtended
  split
  · rw [execWith_halt _ _ _ h]; rfl
  · rw [execWith_enableInterrupts _ _ _ h]; rfl
  · rw [execWith_disableInterrupts _ _ _ h]; rfl
  · rw [execWith_reserved _ h]; rfl

/-- The units after the decoder execute the instruction that the tables give. -/
theorem dispatched_decodePrimary {cfg : Config} (h : cfg.oorPolicy = .wrap) (f : Fields) (w : Word) (s : State) :
    dispatched cfg.bzSample (decodePrimary f w).sel (.ofBit f.rs) (s.effAddr (.ofBits f.mode) f.lit) w s =
      execWith cfg (decodePrimary f w) s := by
  unfold decodePrimary
  split
  case h_8 => exact dispatched_decodeExtended h f _ _ w s
  all_goals generalize RegSel.ofBit f.rs = r
  · rw [execWith_store _ _ _ _ h]; rfl
  · rw [execWith_load _ _ _ _ h]; cases r <;> rfl
  · rw [execWith_add _ _ _ _ h]; cases r <;> rfl
  · rw [execWith_branch _ _ _ _ h]; rfl
  · rw [execWith_branchIfZero _ _ _ _ h]; rfl
  · rw [execWith_clear _ _ _ _ h]; cases r <;> rfl
  · rw [execWith_decrement _ _ _ _ h]; cases r <;> rfl

end Units

/-- Settles O36: a stopped core keeps its state on both sides, and on a running one the units execute the instruction
that the decoder and the dispatch tables give. -/
theorem eightUnitsComposeToTheStep : Obligations.EightUnitsComposeToTheStep := by
  have hunits : ∀ (cfg : Config) (s : State), cfg.oorPolicy = .wrap →
      stepWith cfg s = .next (Units.composedStep cfg.bzSample s) := by
    intro cfg s h
    rw [stepWith_wrap h]
    cases hs : s.stopped with
    | true => rw [Units.composedStep_of_stopped _ hs, if_pos rfl]
    | false =>
      rw [Units.composedStep_of_running _ hs, decode, Units.dispatched_decodePrimary h]
      rfl
  exact ⟨fun s => (step_eq_stepWith s).trans (hunits configuration s rfl), hunits⟩

end Sys2Proof.Machine
end

section
/-!
SUPPORT. The literal and its sum with `X` as numbers, and the effective address of each mode in those numbers (R130 to
R134).
-/
namespace Sys2Proof.Machine

/-! ### The literal and the indexed sum as numbers (R130) -/

theorem toNat_zext16_lit (lit : BitVec 6) : (zext16 lit).toNat = lit.toNat :=
  BitVec.toNat_setWidth_of_le (by decide)

theorem toNat_zext16_lit_add (lit : BitVec 6) (x : Word) :
    (zext16 lit + x).toNat = (lit.toNat + x.toNat) % 65536 := by
  rw [BitVec.toNat_add, toNat_zext16_lit]

/-- The pointer cell of the indirect mode lies in the direct page, so its address needs no reduction (R132). -/
theorem physIndex_zext16_lit (lit : BitVec 6) : physIndex (zext16 lit) = lit.toNat := by
  have hlt : lit.toNat < 64 := lit.isLt
  rw [physIndex, toNat_zext16_lit, Nat.mod_eq_of_lt (by omega)]

/-! ### The effective address of each mode (R131 to R134) -/

section
variable (s : State) (lit : BitVec 6)

theorem State.effAddr_direct : s.effAddr .direct lit = BitVec.ofNat 16 lit.toNat :=
  (BitVec.ofNat_toNat 16 lit).symm

theorem State.effAddr_indirect : s.effAddr .indirect lit = s.M.read lit.toNat :=
  congrArg s.M.read (physIndex_zext16_lit lit)

theorem State.effAddr_indexed :
    s.effAddr .indexed lit = BitVec.ofNat 16 ((lit.toNat + s.X.toNat) % 65536) := by
  rw [← toNat_zext16_lit_add, BitVec.ofNat_toNat, BitVec.setWidth_eq]
  rfl

theorem State.effAddr_indirectIndexed :
    s.effAddr .indirectIndexed lit = s.M.read ((lit.toNat + s.X.toNat) % 65536 % 4096) := by
  rw [← toNat_zext16_lit_add]
  rfl

end

/-- Settles O6: the four modes one by one, and under wrap the resolver gives their value (D1). -/
theorem effectiveAddressOfEachMode : Obligations.EffectiveAddressOfEachMode := by
  intro s lit
  exact ⟨s.effAddr_direct lit, s.effAddr_indirect lit, s.effAddr_indexed lit, s.effAddr_indirectIndexed lit,
    fun mode => resolve_wrap configuration_oorPolicy s mode lit⟩

end Sys2Proof.Machine
end

section
/-!
The statements of the family on memory reference: the next state and the encoding of store, load and add, and the frame of
store.
-/
namespace Sys2Proof.Machine

/-! ### Store (R140) -/

theorem exec_store (s : State) (rs : RegSel) (mode : AddrMode) (lit : BitVec 6) :
    exec (.store rs mode lit) s =
      .next (s.clearZ.setM (s.M.write (physIndex (s.effAddr mode lit)) (s.readReg rs))).advance := by
  rw [exec_eq_execWith, execWith_store _ _ _ _ configuration_oorPolicy]

/-- Settles O7: the new memory is the write of the selected register to the cell of the effective address. -/
theorem storeWritesTheSelectedRegister : Obligations.StoreWritesTheSelectedRegister := by
  intro rs mode lit s
  refine ⟨rfl, s.M.write (physIndex (s.effAddr mode lit)) (s.readReg rs), exec_store s rs mode lit, ?_, ?_⟩
  · rw [← State.readReg_eq_ite]
    exact Memory.read_write_same s.M _ _
  · exact fun a ha => Memory.read_write_other s.M _ ha

/-- Settles O20: the write to memory changes no other cell, and the other updates of a store are to `Z` and `pc`. -/
theorem storeFrame : Obligations.StoreFrame := by
  intro rs mode lit s t h
  obtain rfl := Host.Outcome.next.inj ((exec_store s rs mode lit).symm.trans h)
  exact ⟨rfl, rfl, rfl, rfl, rfl, rfl, rfl, fun a ha => Memory.read_write_other s.M _ ha⟩

/-! ### Load and add (R141, R142) -/

/-- The next state of an instruction that writes `v` to the selected register, as one record update. -/
theorem State.writeReg_setZ_advance_eq (s : State) (rs : RegSel) (v : Word) :
    ((s.clearZ.writeReg rs v).setZ (isZero v)).advance =
      { s with
        X := if rs = .indexReg then v else s.X
        A := if rs = .accumulator then v else s.A
        Z := decide (v = 0)
        pc := s.pc + 1 } := by
  cases rs <;> rfl

/-- Settles O8: the value written to the selected register is the word at the effective address. -/
theorem loadReplacesTheSelectedRegister : Obligations.LoadReplacesTheSelectedRegister := by
  rintro rs mode lit s v rfl
  refine ⟨rfl, ?_⟩
  rw [exec_eq_execWith, execWith_load _ _ _ _ configuration_oorPolicy, State.writeReg_setZ_advance_eq, physIndex]

/-- Settles O9: the sum of the numbers modulo 2^16 is the sum of the Words. -/
theorem addGivesTheWrappedSum : Obligations.AddGivesTheWrappedSum := by
  intro rs mode lit s v hv
  have hsum : v = s.readReg rs + s.M.read (physIndex (s.effAddr mode lit)) := by
    apply BitVec.eq_of_toNat_eq
    rw [hv, BitVec.toNat_add, State.readReg_eq_ite, physIndex]
  refine ⟨rfl, ?_⟩
  rw [exec_eq_execWith, execWith_add _ _ _ _ configuration_oorPolicy, ← hsum, State.writeReg_setZ_advance_eq]

end Sys2Proof.Machine
end

section
/-!
The statements of the family on control transfer: the next state of branch and of branch-if-zero under each reading of
its zero test (D6), the frame of the instructions that write no register or memory, and where the two readings agree.
-/
namespace Sys2Proof.Machine

/-! ### Branch (R150) -/

/-- The next state of an instruction that writes only `pc` beside the unconditional clear, as one record update. -/
theorem State.setPc_clearZ_eq (s : State) (target : Word) :
    s.clearZ.setPc target = { s with Z := false, pc := target } := rfl

theorem exec_branch (s : State) (rs : RegSel) (mode : AddrMode) (lit : BitVec 6) :
    exec (.branch rs mode lit) s = .next { s with Z := false, pc := s.effAddr mode lit } := by
  rw [exec_eq_execWith, execWith_branch _ _ _ _ configuration_oorPolicy, State.setPc_clearZ_eq]

/-- The word of a branch with register-select 0 has no bits above the mode but those of `op` (R87). -/
theorem encode_branch_indexReg (mode : AddrMode) (lit : BitVec 6) :
    encode (.branch .indexReg mode lit) = 0x0600#16 ||| (zext16 mode.toBits <<< 6) ||| zext16 lit := by
  have hop : (zext16 3#3 <<< 9) ||| (zext16 0#1 <<< 8) = 0x0600#16 := by decide
  rw [← hop]
  rfl

/-- Settles O10: `pc` is the whole effective address, which the next fetch reduces (D1, D2). -/
theorem branchLoadsTheWholeEffectiveAddress : Obligations.BranchLoadsTheWholeEffectiveAddress := by
  intro rs mode lit s
  refine ⟨encode_branch_indexReg mode lit, exec_branch s rs mode lit, fun t h => ?_⟩
  obtain rfl := Host.Outcome.next.inj ((exec_branch s rs mode lit).symm.trans h)
  rfl

/-! ### Branch-if-zero under each reading of its zero test (R153, R154, D6) -/

/-- Under before_clear the value branch-if-zero tests is the flag with which the step began (R154). -/
theorem zeroTest_beforeClear {cfg : Config} (h : cfg.bzSample = .beforeClear) (s : State) : zeroTest cfg s = s.Z := by
  simp [zeroTest, h]

/-- Settles O11: the tested value is the cleared flag. -/
theorem branchIfZeroFallsThrough : Obligations.BranchIfZeroFallsThrough := by
  intro rs mode lit s
  rw [exec_eq_execWith, execWith_branchIfZero _ _ _ _ configuration_oorPolicy,
    zeroTest_afterClear s configuration_bzSample, if_neg Bool.false_ne_true, State.setPc_clearZ_eq]

/-- Settles O12: the tested value is the flag with which the step began. -/
theorem branchIfZeroBeforeClear : Obligations.BranchIfZeroBeforeClear := by
  intro rs mode lit s cfg hwrap hbz
  rw [execWith_branchIfZero _ _ _ _ hwrap, zeroTest_beforeClear hbz, State.setPc_clearZ_eq]

/-! ### The frame of the control instructions (R150, R152, R170, R172, R173) -/

/-- Of the fields that the five control instructions keep, those that other instructions write: the registers, memory
and the latch. -/
theorem execWith_controlInstr_frame {cfg : Config} (h : cfg.oorPolicy = .wrap) {i : Instr} {rs : RegSel}
    {mode : AddrMode} {lit : BitVec 6} (s : State)
    (hi : i = .branch rs mode lit ∨ i = .branchIfZero rs mode lit ∨ i = .halt rs lit ∨ i = .enableInterrupts rs lit ∨
      i = .disableInterrupts rs lit) :
    (execWith cfg i s).X = s.X ∧ (execWith cfg i s).A = s.A ∧ (execWith cfg i s).M = s.M ∧
      (execWith cfg i s).ERR = s.ERR := by
  rcases hi with rfl | rfl | rfl | rfl | rfl <;> simp [h]

/-- Settles O21: no instruction writes `N` or `C`, and `HALT` and `IE` change only by their own writers. -/
theorem controlFrame : Obligations.ControlFrame := by
  intro rs mode lit s t i hi h
  obtain ⟨hX, hA, hM, hERR⟩ := execWith_controlInstr_frame configuration_oorPolicy s hi
  rw [eq_execWith_of_exec h]
  refine ⟨hX, hA, execWith_N configuration_oorPolicy i s, execWith_C configuration_oorPolicy i s, hERR,
    fun a => by rw [hM], fun hHALT => ?_, fun hEI hDI => ?_⟩
  · simp [execWith_HALT, hHALT]
  · simp [execWith_IE, hEI, hDI]

/-! ### Where the two readings agree (R154, D6) -/

/-- When the step began with the flag clear, both readings test a clear flag. -/
theorem zeroTest_of_Z_eq_false {s : State} (hZ : s.Z = false) (cfg : Config) : zeroTest cfg s = false := by
  cases hbz : cfg.bzSample with
  | afterClear => exact zeroTest_afterClear s hbz
  | beforeClear => rw [zeroTest_beforeClear hbz, hZ]

/-- Only a branch-if-zero that meets a set zero flag depends on `BZ_SAMPLE`. -/
theorem execWith_bzSample {s : State} {i : Instr} (h : s.Z = false ∨ i.sel ≠ .BRANCH_IF_ZERO) (cfg : Config)
    (sample : BzSample) : execWith { cfg with bzSample := sample } i s = execWith cfg i s := by
  cases i with
  | branchIfZero rs mode lit =>
    have hZ : s.Z = false := h.resolve_right fun hsel => hsel rfl
    simp only [execWith, branchIfZeroWith, zeroTest_of_Z_eq_false hZ]
    rfl
  | _ => rfl

theorem memRead_congr {cfg cfg' : Config} (hpol : cfg'.oorPolicy = cfg.oorPolicy) (m : Memory) (addr : Word) :
    memRead cfg' m addr = memRead cfg m addr := by
  rw [memRead, memRead, checkAddr, checkAddr, hpol]

/-- Beside the instruction at `pc`, a step request depends on no parameter but the policy of its fetch. -/
theorem cycle_congr {cfg cfg' : Config} (hpol : cfg'.oorPolicy = cfg.oorPolicy) {run run' : Instr → State → Result}
    {s : State} (hrun : run' (decode s.wordAtPc) s = run (decode s.wordAtPc) s) :
    cycle cfg' run' s = cycle cfg run s := by
  rw [cycle, cycle, memRead_congr hpol]
  split
  · rfl
  split
  · next hw => rw [memRead_ok hw]; exact hrun
  · rfl

theorem stepWith_bzSample {s : State} (h : s.Z = false ∨ (decode s.wordAtPc).sel ≠ .BRANCH_IF_ZERO) (cfg : Config)
    (sample : BzSample) : stepWith { cfg with bzSample := sample } s = stepWith cfg s := by
  rw [stepWith, stepWith]
  refine cycle_congr ?_ ?_
  · rfl
  · rw [execWith_bzSample h]

/-- Settles O43: each of the two steps is the step at the given `BZ_SAMPLE`. -/
theorem branchIfZeroReadingsAgree : Obligations.BranchIfZeroReadingsAgree := fun cfg _ h =>
  (stepWith_bzSample h cfg .afterClear).trans (stepWith_bzSample h cfg .beforeClear).symm

end Sys2Proof.Machine
end

section
/-!
The statements of the family on the register operations: the next state and the canonical encoding of clear and decrement.
-/
namespace Sys2Proof.Machine

/-- The canonical words of R160 and R161 have mode and literal 0: only `op` and the register-select bit
are left. -/
theorem encodeFields_direct_zero (op : BitVec 3) (rs : BitVec 1) :
    encodeFields ⟨op, rs, AddrMode.direct.toBits, 0⟩ = (zext16 op <<< 9) ||| (zext16 rs <<< 8) := by
  simp [encodeFields, zext16, AddrMode.toBits]

/-! ### Clear (R160) -/

/-- Settles O13: clear is a register write of 0, so the zero condition of its result is the flag it sets. -/
theorem clearZeroesTheSelectedRegister : Obligations.ClearZeroesTheSelectedRegister := by
  intro rs mode lit s
  refine ⟨encodeFields_direct_zero 5 rs.toBit, ?_⟩
  rw [exec_eq_execWith, execWith_clear _ _ _ _ configuration_oorPolicy]
  exact congrArg Host.Outcome.next (State.writeReg_setZ_advance_eq s rs 0)

/-! ### Decrement (R161) -/

/-- The decrement as a number (R162): 0 goes to 65535. -/
theorem toNat_sub_one (old : Word) : (old - 1).toNat = if old.toNat = 0 then 65535 else old.toNat - 1 := by
  split <;> bv_omega

/-- Settles O14: the value in numbers is the wrapped difference of the Words, which is 0 exactly for 1. -/
theorem decrementSubtractsOne : Obligations.DecrementSubtractsOne := by
  intro rs mode lit s old v hold hv
  have hread : s.readReg rs = old := (State.readReg_eq_ite s rs).trans hold.symm
  have hdiff : v = old - 1 := BitVec.eq_of_toNat_eq (hv.trans (toNat_sub_one old).symm)
  refine ⟨encodeFields_direct_zero 6 rs.toBit, ?_⟩
  rw [exec_eq_execWith, execWith_decrement _ _ _ _ configuration_oorPolicy, hread, State.writeReg_setZ_advance_eq,
    hdiff, decide_eq_decide.mpr sub_eq_zero]

end Sys2Proof.Machine
end

section
/-!
The statements of the family on the secondary table: the next state, the words and the canonical word of halt,
enable-interrupts and disable-interrupts, and the report of a halted core.
-/
namespace Sys2Proof.Machine

/-! ### Each entry of the secondary table has one form of instruction (R86, R104) -/

theorem sel_eq_HALT_iff {i : Instr} : i.sel = .HALT ↔ ∃ r l, i = .halt r l := by
  cases i with
  | halt r l => exact iff_of_true rfl ⟨r, l, rfl⟩
  | _ => exact iff_of_false nofun nofun

theorem sel_eq_ENABLE_INT_iff {i : Instr} : i.sel = .ENABLE_INT ↔ ∃ r l, i = .enableInterrupts r l := by
  cases i with
  | enableInterrupts r l => exact iff_of_true rfl ⟨r, l, rfl⟩
  | _ => exact iff_of_false nofun nofun

theorem sel_eq_DISABLE_INT_iff {i : Instr} : i.sel = .DISABLE_INT ↔ ∃ r l, i = .disableInterrupts r l := by
  cases i with
  | disableInterrupts r l => exact iff_of_true rfl ⟨r, l, rfl⟩
  | _ => exact iff_of_false nofun nofun

/-! ### Halt (R170) -/

theorem State.setHALT_clearZ_eq (s : State) (b : Bool) : s.clearZ.setHALT b = { s with Z := false, HALT := b } := rfl

theorem HostInterface.report_of_halted {s : State} (hERR : s.ERR = none) (hHALT : s.HALT = true) :
    report s = .halted := by
  simp [report, hERR, hHALT]

/-- Settles O15: of the machine's state halt writes only the two flags, so the latch that was empty stays empty. -/
theorem haltStopsAtItself : Obligations.HaltStopsAtItself := by
  intro rs lit s
  refine ⟨rfl, fun w => (sel_decode_HALT_iff w).symm.trans sel_eq_HALT_iff, ?_, fun hERR =>
    HostInterface.report_of_halted hERR rfl⟩
  rw [exec_eq_execWith, execWith_halt _ _ _ configuration_oorPolicy, State.setHALT_clearZ_eq]

/-! ### Enable-interrupts and disable-interrupts (R172, R173) -/

/-- The next state of an instruction that writes `IE` and advances, as one record update. -/
theorem State.setIE_clearZ_advance_eq (s : State) (b : Bool) :
    (s.clearZ.setIE b).advance = { s with Z := false, IE := b, pc := s.pc + 1 } := rfl

/-- Settles O16: the words are those of entry 1 of the secondary table. -/
theorem enableInterruptsSetsIE : Obligations.EnableInterruptsSetsIE := by
  intro rs lit s
  refine ⟨rfl, fun w => (sel_decode_ENABLE_INT_iff w).symm.trans sel_eq_ENABLE_INT_iff, ?_⟩
  rw [exec_eq_execWith, execWith_enableInterrupts _ _ _ configuration_oorPolicy, State.setIE_clearZ_advance_eq]

/-- Settles O17: the words are those of entry 2 of the secondary table. -/
theorem disableInterruptsClearsIE : Obligations.DisableInterruptsClearsIE := by
  intro rs lit s
  refine ⟨rfl, fun w => (sel_decode_DISABLE_INT_iff w).symm.trans sel_eq_DISABLE_INT_iff, ?_⟩
  rw [exec_eq_execWith, execWith_disableInterrupts _ _ _ configuration_oorPolicy, State.setIE_clearZ_advance_eq]

end Sys2Proof.Machine
end

section
/-!
The statements of the family on exceptions: the reserved encoding, the flags that nothing reads, and the policy reject
beside wrap (D1).
-/
namespace Sys2Proof.Machine

/-! ### The reserved encoding (R181, R208, D4) -/

theorem HostInterface.afterStep_of_running {s : State} (h : s.stopped = false) :
    afterStep s = execWith configuration (decode s.wordAtPc) s := by
  rw [afterStep, step_of_running h]

theorem exec_reserved (w : Word) (s : State) : exec (.reserved w) s = .next (s.takeError (.decodeError s.pc w)) := by
  rw [exec_eq_execWith, execWith_reserved _ configuration_oorPolicy]

/-- Settles O18: the mask tells the word as the reserved encoding, and the report tests the latch first (D9). -/
theorem reservedEncodingLatchesDecodeError : Obligations.ReservedEncodingLatchesDecodeError := by
  intro w s
  refine ⟨exec_reserved w s, fun hHALT hERR hword hmask => ?_⟩
  have hs : s.stopped = false := s.stopped_eq_false_iff.mpr ⟨hHALT, hERR⟩
  have hdecode : decode s.wordAtPc = .reserved w := by
    rw [State.wordAtPc, physIndex, hword]
    exact decode_eq_reserved ((sel_decode_RESERVED_iff w).mpr hmask)
  rw [HostInterface.hostStep, HostInterface.afterStep_of_running hs, hdecode,
    execWith_reserved _ configuration_oorPolicy]
  rfl

/-! ### The flags that nothing reads (R30 to R32, R188) -/

/-- `s` with other values of the three flags that no instruction reads. -/
def State.setInertFlags (s : State) (n c ie : Bool) : State := { s with N := n, C := c, IE := ie }

section
variable (s : State) (n c ie b : Bool)

@[simp] theorem State.setInertFlags_pc : (s.setInertFlags n c ie).pc = s.pc := rfl
@[simp] theorem State.setInertFlags_M : (s.setInertFlags n c ie).M = s.M := rfl
@[simp] theorem State.setInertFlags_IE : (s.setInertFlags n c ie).IE = ie := rfl
@[simp] theorem State.setZ_setInertFlags : (s.setInertFlags n c ie).setZ b = (s.setZ b).setInertFlags n c ie := rfl
@[simp] theorem State.clearZ_setInertFlags : (s.setInertFlags n c ie).clearZ = s.clearZ.setInertFlags n c ie := rfl
@[simp] theorem State.setHALT_setInertFlags :
    (s.setInertFlags n c ie).setHALT b = (s.setHALT b).setInertFlags n c ie := rfl
@[simp] theorem State.setM_setInertFlags (m : Memory) :
    (s.setInertFlags n c ie).setM m = (s.setM m).setInertFlags n c ie := rfl
@[simp] theorem State.setPc_setInertFlags (p : Word) :
    (s.setInertFlags n c ie).setPc p = (s.setPc p).setInertFlags n c ie := rfl
@[simp] theorem State.advance_setInertFlags : (s.setInertFlags n c ie).advance = s.advance.setInertFlags n c ie := rfl
@[simp] theorem State.takeError_setInertFlags (e : ErrorReport) :
    (s.setInertFlags n c ie).takeError e = (s.takeError e).setInertFlags n c ie := rfl

@[simp] theorem State.writeReg_setInertFlags (r : RegSel) (v : Word) :
    (s.setInertFlags n c ie).writeReg r v = (s.writeReg r v).setInertFlags n c ie := by
  cases r <;> rfl

/-- A writer of `IE` overwrites the value that was put there. -/
@[simp] theorem State.setIE_setInertFlags :
    (s.setInertFlags n c ie).setIE b = (s.setIE b).setInertFlags n c b := rfl

@[simp] theorem State.readReg_setInertFlags (r : RegSel) : (s.setInertFlags n c ie).readReg r = s.readReg r := by
  cases r <;> rfl

@[simp] theorem State.effAddr_setInertFlags (mode : AddrMode) (lit : BitVec 6) :
    (s.setInertFlags n c ie).effAddr mode lit = s.effAddr mode lit := by
  cases mode <;> rfl

@[simp] theorem zeroTest_setInertFlags (cfg : Config) : zeroTest cfg (s.setInertFlags n c ie) = zeroTest cfg s := rfl

/-- An instruction sees the three flags only to keep them or, the writers of `IE`, to overwrite them. -/
theorem execWith_setInertFlags {cfg : Config} (h : cfg.oorPolicy = .wrap) (i : Instr) :
    execWith cfg i (s.setInertFlags n c ie) =
      (execWith cfg i s).setInertFlags n c (execWith cfg i (s.setInertFlags n c ie)).IE := by
  cases i <;> simp [h]

end

/-- Settles O26: the other flags neither stop the core nor change the word at `pc`, and its instruction commutes with
setting them. -/
theorem inertFlagsInfluenceNothing : Obligations.InertFlagsInfluenceNothing := by
  intro s t n c ie h
  change ∃ ie', step (s.setInertFlags n c ie) = .next (t.setInertFlags n c ie')
  obtain ⟨hs, rfl⟩ | ⟨hs, rfl⟩ := step_cases h
  · exact ⟨ie, step_of_stopped hs⟩
  · have hs' : (s.setInertFlags n c ie).stopped = false := hs
    exact ⟨_, (step_of_running hs').trans
      (congrArg Host.Outcome.next (execWith_setInertFlags s n c ie configuration_oorPolicy _))⟩

/-! ### An access above 4095 under reject (R184, D1, log 8) -/

theorem checkAddr_reject {cfg : Config} (h : cfg.oorPolicy = .reject) {addr : Word} (ha : 4096 ≤ addr.toNat) :
    checkAddr cfg addr = .error addr := by
  simp [checkAddr, h, ha]

theorem memRead_reject {cfg : Config} (h : cfg.oorPolicy = .reject) (m : Memory) {addr : Word}
    (ha : 4096 ≤ addr.toNat) : memRead cfg m addr = .error addr := by
  simp [memRead, checkAddr_reject h ha]

theorem memWrite_reject {cfg : Config} (h : cfg.oorPolicy = .reject) (m : Memory) {addr : Word} (v : Word)
    (ha : 4096 ≤ addr.toNat) : memWrite cfg m addr v = .error addr := by
  simp [memWrite, checkAddr_reject h ha]

section
variable {α : Type} {access : Except Word α} {cfg : Config} {s : State} {mode : AddrMode} {lit : BitVec 6}

theorem State.orReject_of_error {addr : Word} (h : access = .error addr) (k : α → State) :
    s.orReject access k = s.rejectAccess addr := by
  rw [h, State.orReject]

theorem State.withEa_of_ok {ea : Word} (h : resolve cfg s.M s.X mode lit = .ok ea) (k : Word → State) :
    s.withEa cfg mode lit k = k ea := by
  rw [State.withEa, h, State.orReject]

theorem State.withEa_of_error {addr : Word} (h : resolve cfg s.M s.X mode lit = .error addr) (k : Word → State) :
    s.withEa cfg mode lit k = s.rejectAccess addr :=
  State.orReject_of_error h k

/-- A discarded pointer read that is performed ends the step like any other. -/
theorem State.discardEa_of_error {addr : Word} (hread : cfg.readUnusedPointer = true)
    (h : resolve cfg s.M s.X mode lit = .error addr) (k : State) :
    s.discardEa cfg mode lit k = s.rejectAccess addr := by
  rw [State.discardEa, if_pos hread, State.withEa_of_error h]

end

/-- Settles O45: the effective address is formed, and the one access at it is rejected. -/
theorem rejectStopsDataAccessAboveMemory : Obligations.RejectStopsDataAccessAboveMemory := by
  intro cfg rs mode lit ea s i hpol hea hge hi
  rcases hi with rfl | rfl | rfl
  · exact (State.withEa_of_ok hea _).trans (State.orReject_of_error (memWrite_reject hpol s.M _ hge) _)
  · exact (State.withEa_of_ok hea _).trans (State.orReject_of_error (memRead_reject hpol s.M hge) _)
  · exact (State.withEa_of_ok hea _).trans (State.orReject_of_error (memRead_reject hpol s.M hge) _)

/-- Under reject the pointer read of mode 3 at a sum above 4095 fails (R133, R184). -/
theorem resolve_indirectIndexed_reject {cfg : Config} (h : cfg.oorPolicy = .reject) (m : Memory) {x addr : Word}
    {lit : BitVec 6} (haddr : addr.toNat = (lit.toNat + x.toNat) % 65536) (hge : 4096 ≤ addr.toNat) :
    resolve cfg m x .indirectIndexed lit = .error addr := by
  have hsum : addr = zext16 lit + x := BitVec.eq_of_toNat_eq (haddr.trans (toNat_zext16_lit_add lit x).symm)
  rw [resolve, ← hsum, memRead_reject h m hge]

theorem stepWith_of_rejected_fetch {cfg : Config} (h : cfg.oorPolicy = .reject) {s : State} (hs : s.stopped = false)
    (hge : 4096 ≤ s.pc.toNat) : stepWith cfg s = .next (s.takeError (.outOfRangeAddress s.pc none s.pc)) := by
  simp [stepWith, cycle, hs, memRead_reject h s.M hge]

/-- Settles O46: the fetch comes before the instruction, and the pointer read before anything the instruction does. -/
theorem rejectStopsFetchAndPointerAboveMemory : Obligations.RejectStopsFetchAndPointerAboveMemory := by
  intro cfg s hpol
  refine ⟨stepWith_of_rejected_fetch hpol, fun rs lit addr i haddr hge hi => ?_⟩
  have hea : resolve cfg s.M s.X .indirectIndexed lit = .error addr :=
    resolve_indirectIndexed_reject hpol s.M haddr hge
  rcases hi with rfl | rfl | rfl | rfl | rfl | ⟨hread, hi⟩
  iterate 5 exact State.withEa_of_error hea _
  rcases hi with rfl | rfl | ⟨w, rfl, rfl⟩
  iterate 3 exact State.discardEa_of_error hread hea _

/-! ### The two policies beside each other (R184, D1) -/

/-- The same choice of the parameters but for the policy wrap. -/
def underWrap (cfg : Config) : Config := { cfg with oorPolicy := .wrap }

/-- An access answers what the other answers, or it is rejected at an address above 4095. -/
def AccessSameOrRejected {α : Type} (access other : Except Word α) : Prop :=
  access = other ∨ ∃ addr : Word, 4096 ≤ addr.toNat ∧ access = .error addr

/-- A next state of `s` is the other, or that of an access rejected at an address above 4095. -/
def State.SameOrRejected (s next other : State) : Prop :=
  next = other ∨ ∃ addr : Word, 4096 ≤ addr.toNat ∧ next = s.rejectAccess addr

section
variable (cfg : Config) (s : State) (m : Memory) (addr : Word) (mode : AddrMode) (lit : BitVec 6)

/-- Below 4096 the check answers the physical index under either policy. -/
theorem checkAddr_sameOrRejected : AccessSameOrRejected (checkAddr cfg addr) (checkAddr (underWrap cfg) addr) := by
  cases h : checkAddr cfg addr with
  | ok a => exact .inl (by rw [checkAddr_ok h, checkAddr_wrap rfl])
  | error bad =>
    obtain ⟨-, rfl, hge⟩ := checkAddr_error h
    exact .inr ⟨bad, hge, rfl⟩

theorem memRead_sameOrRejected : AccessSameOrRejected (memRead cfg m addr) (memRead (underWrap cfg) m addr) := by
  obtain h | ⟨bad, hge, h⟩ := checkAddr_sameOrRejected cfg addr
  · exact .inl (by rw [memRead, memRead, h])
  · exact .inr ⟨bad, hge, by rw [memRead, h]⟩

theorem memWrite_sameOrRejected (v : Word) :
    AccessSameOrRejected (memWrite cfg m addr v) (memWrite (underWrap cfg) m addr v) := by
  obtain h | ⟨bad, hge, h⟩ := checkAddr_sameOrRejected cfg addr
  · exact .inl (by rw [memWrite, memWrite, h])
  · exact .inr ⟨bad, hge, by rw [memWrite, h]⟩

theorem resolve_sameOrRejected (x : Word) :
    AccessSameOrRejected (resolve cfg m x mode lit) (resolve (underWrap cfg) m x mode lit) := by
  cases mode with
  | direct => exact .inl rfl
  | indirect => exact memRead_sameOrRejected cfg m _
  | indexed => exact .inl rfl
  | indirectIndexed => exact memRead_sameOrRejected cfg m _

variable {cfg s mode lit}

theorem State.orReject_sameOrRejected {α : Type} {access other : Except Word α} {k k' : α → State}
    (haccess : AccessSameOrRejected access other) (hk : ∀ v, s.SameOrRejected (k v) (k' v)) :
    s.SameOrRejected (s.orReject access k) (s.orReject other k') := by
  obtain rfl | ⟨bad, hge, rfl⟩ := haccess
  · cases access with
    | ok v => exact hk v
    | error bad => exact .inl rfl
  · exact .inr ⟨bad, hge, rfl⟩

theorem State.withEa_sameOrRejected {k k' : Word → State} (hk : ∀ ea, s.SameOrRejected (k ea) (k' ea)) :
    s.SameOrRejected (s.withEa cfg mode lit k) (s.withEa (underWrap cfg) mode lit k') :=
  State.orReject_sameOrRejected (resolve_sameOrRejected cfg s.M mode lit s.X) hk

theorem State.discardEa_sameOrRejected (k : State) :
    s.SameOrRejected (s.discardEa cfg mode lit k) (s.discardEa (underWrap cfg) mode lit k) := by
  cases hread : cfg.readUnusedPointer with
  | false => exact .inl (by simp [State.discardEa, underWrap, hread])
  | true =>
    have hread' : (underWrap cfg).readUnusedPointer = true := hread
    rw [State.discardEa, State.discardEa, if_pos hread, if_pos hread']
    exact State.withEa_sameOrRejected fun _ => .inl rfl

end

/-- An instruction acts through its accesses, so between the two policies it differs at most by one of them being
rejected. -/
theorem execWith_sameOrRejected (cfg : Config) (i : Instr) (s : State) :
    s.SameOrRejected (execWith cfg i s) (execWith (underWrap cfg) i s) := by
  cases i with
  | store =>
    exact State.withEa_sameOrRejected fun ea =>
      State.orReject_sameOrRejected (memWrite_sameOrRejected cfg s.M ea _) fun _ => .inl rfl
  | load =>
    exact State.withEa_sameOrRejected fun ea =>
      State.orReject_sameOrRejected (memRead_sameOrRejected cfg s.M ea) fun _ => .inl rfl
  | add =>
    exact State.withEa_sameOrRejected fun ea =>
      State.orReject_sameOrRejected (memRead_sameOrRejected cfg s.M ea) fun _ => .inl rfl
  | branch => exact State.withEa_sameOrRejected fun _ => .inl rfl
  | branchIfZero => exact State.withEa_sameOrRejected fun _ => .inl rfl
  | _ => exact State.discardEa_sameOrRejected _

/-- Settles O44: a stopped core keeps its state under both policies, a fetch above 4095 is rejected, and any other fetch
gives both policies the same instruction. -/
theorem rejectDiffersOnlyByTheError : Obligations.RejectDiffersOnlyByTheError := by
  intro cfg s _
  change stepWith cfg s = stepWith (underWrap cfg) s ∨ _
  rw [stepWith_wrap (cfg := underWrap cfg) rfl, stepWith]
  obtain ⟨hs, heq⟩ | ⟨hs, -, heq⟩ | ⟨-, -, hge, heq⟩ :=
    cycle_cases cfg (fun i t => .next (execWith cfg i t)) s
  · exact .inl (by rw [heq, if_pos hs])
  · rw [heq, hs]
    obtain hsame | ⟨addr, hge, hrej⟩ := execWith_sameOrRejected cfg (decode s.wordAtPc) s
    · exact .inl (congrArg Host.Outcome.next hsame)
    · exact .inr ⟨some s.wordAtPc, addr, hge, congrArg Host.Outcome.next hrej⟩
  · exact .inr ⟨none, s.pc, hge, heq⟩

end Sys2Proof.Machine
end

section
/-!
The statements of the family on reset and hazards: the zero flag with which a step begins, how a run fails,
run_until_halt, the loader and its launch state, the stages of a session, reset and the snapshot.
-/
namespace Sys2Proof.Machine

/-! ### The zero flag with which a step begins (R153, R223, D6) -/

section
variable (s : State) (b : Bool)

@[simp] theorem State.clearZ_setZ : (s.setZ b).clearZ = s.clearZ := rfl

@[simp] theorem State.readReg_setZ (r : RegSel) : (s.setZ b).readReg r = s.readReg r := by
  cases r <;> rfl

@[simp] theorem State.effAddr_setZ (mode : AddrMode) (lit : BitVec 6) :
    (s.setZ b).effAddr mode lit = s.effAddr mode lit := by
  cases mode <;> rfl

/-- Every instruction but the reserved encoding begins with the clear of the zero flag, and under after_clear
branch-if-zero tests the cleared flag. -/
theorem execWith_setZ {cfg : Config} (h : cfg.oorPolicy = .wrap) (hbz : cfg.bzSample = .afterClear) {i : Instr}
    (hi : i.sel ≠ .RESERVED) : execWith cfg i (s.setZ b) = execWith cfg i s := by
  cases i with
  | reserved => exact absurd rfl hi
  | _ => simp [h, hbz]

end

/-- Settles O27: the zero flag neither stops the core nor changes the word at `pc`, and the instruction there clears the
flag before anything reads it. -/
theorem storedZeroFlagIsNeverRead : Obligations.StoredZeroFlagIsNeverRead := by
  intro s b hs hw
  have hs' : (s.setZ b).stopped = false := hs
  have hr : (decode s.wordAtPc).sel ≠ .RESERVED := (sel_decode_RESERVED_iff _).not.mpr hw
  change step (s.setZ b) = step s
  rw [step_of_running hs', step_of_running hs]
  exact congrArg Host.Outcome.next (execWith_setZ s b configuration_oorPolicy configuration_bzSample hr)

/-! ### How a run fails (R41, R211, D4) -/

/-- Settles O53: the end of the run is a reachable state, so the invariants of R41 hold there, its error clause among
them. -/
theorem failingRunEndsAtAReservedWord : Obligations.FailingRunEndsAtAReservedWord := by
  intro ws t hfail
  obtain ⟨n, rfl, herr, -⟩ := hfail
  have hinv := ((Reachable.launch ws).stepN n).inv
  obtain ⟨e, he⟩ := Option.isSome_iff_exists.mp herr
  cases e with
  | decodeError p w =>
    obtain ⟨rfl, hHALT, rfl, hw⟩ := hinv.inError p w he
    exact ⟨he, hw, hHALT⟩
  | outOfRangeAddress p w a => exact absurd he (hinv.neverOutOfRange p w a)

/-! ### run_until_halt (R209, D9) -/

namespace HostInterface

theorem runUntilHalt_of_stopped {s : State} (h : s.stopped = true) (limit : Nat) :
    runUntilHalt limit s = ⟨report s, 0, s⟩ :=
  runFrom_of_stopped h limit 0

theorem runFrom_succ_of_running {s : State} (h : s.stopped = false) (limit n : Nat) :
    runFrom (limit + 1) n s = runFrom limit (n + 1) (afterStep s) := by
  simp [runFrom, h]

/-- The steps already made are only counted. -/
theorem runFrom_add (limit n k : Nat) (s : State) :
    runFrom limit (n + k) s = { runFrom limit n s with steps := (runFrom limit n s).steps + k } := by
  induction limit generalizing n s with
  | zero => rfl
  | succ limit ih =>
    cases hs : s.stopped with
    | true => simp [runFrom_of_stopped hs]
    | false => rw [runFrom_succ_of_running hs, runFrom_succ_of_running hs, Nat.add_right_comm, ih]

/-- A running core makes one step, and the run goes on from there. -/
theorem runUntilHalt_succ_of_running {s : State} (h : s.stopped = false) (limit : Nat) :
    runUntilHalt (limit + 1) s =
      { runUntilHalt limit (afterStep s) with steps := (runUntilHalt limit (afterStep s)).steps + 1 } :=
  (runFrom_succ_of_running h limit 0).trans (runFrom_add limit 0 1 (afterStep s))

/-- What R209 asks of the result of run_until_halt beside the state it leaves. -/
structure RunsToLimitOrStop (limit : Nat) (s : State) (r : RunResult) : Prop where
  steps_le : r.steps ≤ limit
  reports : r.result = report r.final
  running : ∀ k < r.steps, (stepN k s).stopped = false
  stopped : r.steps < limit → r.final.stopped = true

/-- One more step, from a running core, before a run that keeps to R209. -/
theorem RunsToLimitOrStop.succ {limit : Nat} {s : State} {r : RunResult} (hs : s.stopped = false)
    (h : RunsToLimitOrStop limit (afterStep s) r) :
    RunsToLimitOrStop (limit + 1) s { r with steps := r.steps + 1 } where
  steps_le := Nat.succ_le_succ h.steps_le
  reports := h.reports
  running
    | 0, _ => hs
    | k + 1, hk => h.running k (Nat.lt_of_succ_lt_succ hk)
  stopped hlt := h.stopped (Nat.lt_of_succ_lt_succ hlt)

theorem runUntilHalt_runsToLimitOrStop (limit : Nat) (s : State) :
    RunsToLimitOrStop limit s (runUntilHalt limit s) := by
  induction limit generalizing s with
  | zero => exact ⟨Nat.le_refl 0, rfl, nofun, nofun⟩
  | succ limit ih =>
    cases hs : s.stopped with
    | true =>
      rw [runUntilHalt_of_stopped hs]
      exact ⟨Nat.zero_le _, rfl, nofun, fun _ => hs⟩
    | false =>
      rw [runUntilHalt_succ_of_running hs]
      exact (ih (afterStep s)).succ hs

end HostInterface

/-- Settles O48: by induction on the limit, step by step from a running core. -/
theorem runUntilHaltCountsItsSteps : Obligations.RunUntilHaltCountsItsSteps := by
  intro limit s
  obtain ⟨hle, hreport, hrunning, hstopped⟩ := HostInterface.runUntilHalt_runsToLimitOrStop limit s
  exact ⟨hle, HostInterface.runUntilHalt_final limit s, hreport, hrunning, hstopped⟩

/-! ### The loader (R185, R205, R206) -/

/-- Settles O49: the image is a load into the memory of reset, whose cells read 0 (D15). -/
theorem launchImageHoldsTheWords : Obligations.LaunchImageHoldsTheWords := by
  refine fun ws => ⟨fun a ha => ?_, rfl⟩
  change (Loader.loadInto ws []).read a = ws.getD a 0
  rw [Loader.loadInto_read]
  split
  · rfl
  · next hlen =>
    have hpast : ws.length ≤ a := by omega
    rw [List.getD_eq_default _ _ hpast, Memory.read_nil, unlistedWord]

/-- Reading a listing stops when the capacity is reached (R206). -/
theorem Loader.wordsOf_length_le {capacity : Nat} {lines : Listing} {ws : List Word}
    (h : wordsOf capacity lines = .ok ws) : ws.length ≤ capacity := by
  induction lines generalizing capacity ws with
  | nil =>
    obtain rfl := Except.ok.inj h
    exact Nat.zero_le _
  | cons line lines ih =>
    rw [wordsOf] at h
    split at h
    · obtain rfl := Except.ok.inj h
      exact Nat.zero_le _
    split at h
    · exact ih h
    · cases h
    · split at h
      · next hws =>
        obtain rfl := Except.ok.inj h
        have hlen := ih hws
        rw [List.length_cons]
        omega
      · cases h

theorem Loader.loadSource_length_le {text : Listing} {ws : List Word} (h : loadSource (some text) = .ok ws) :
    ws.length ≤ 4096 :=
  wordsOf_length_le h

namespace HostInterface

/-- After a failed load the interface offers only reset and observe (log 10). -/
theorem act_loadFailed {a : Action} (hreset : a ≠ .reset) (hobserve : a ≠ .observe) (c : State) :
    act a ⟨c, .loadFailed⟩ = (⟨c, .loadFailed⟩, .notOffered) := by
  cases a with
  | reset => exact absurd rfl hreset
  | observe => exact absurd rfl hobserve
  | _ => rfl

end HostInterface

/-- Settles O50: the capacity bounds every listing read, and a source that cannot be read leads to the stage in which
no load, step or run is offered. -/
theorem loaderKeepsToCapacity : Obligations.LoaderKeepsToCapacity :=
  ⟨fun _ _ => Loader.loadSource_length_le, fun c =>
    ⟨rfl, fun _ hreset hobserve => HostInterface.act_loadFailed hreset hobserve c⟩⟩

/-! ### The stages of a session (R207, R209, R212, D13) -/

/-- A list within the capacity is loaded whole. -/
theorem Loader.loadInto_read_of_length_le {ws : List Word} (h : ws.length ≤ 4096) (m : Memory) (a : Nat) :
    (loadInto ws m).read a = if a < ws.length then ws.getD a 0 else m.read a := by
  rw [loadInto_read, Nat.min_eq_right h]

namespace HostInterface

theorem act_load_fresh {source : Option Loader.Listing} {ws : List Word} (h : Loader.loadSource source = .ok ws)
    (c : State) : act (.load source) ⟨c, .fresh⟩ = (⟨c.setM (Loader.loadInto ws c.M), .fresh⟩, .done) := by
  simp [act, h]

/-- A run of limit 0 makes no step, so a load that was on offer stays on offer (R209, log 10). -/
theorem act_runUntilHalt_zero {st : Stage} (hst : st ≠ .loadFailed) (c : State) :
    act (.runUntilHalt 0) ⟨c, st⟩ = (⟨c, st⟩, .ran (report c) 0) := by
  cases st with
  | loadFailed => exact absurd rfl hst
  | _ => rfl

theorem act_step_stage_of_running {c : State} (hc : c.stopped = false) :
    (act .step ⟨c, .fresh⟩).1.stage = .started := by
  simp [act, hc]

theorem act_runUntilHalt_succ_stage_of_running {c : State} (hc : c.stopped = false) (limit : Nat) :
    (act (.runUntilHalt (limit + 1)) ⟨c, .fresh⟩).1.stage = .started := by
  simp [act, runUntilHalt_succ_of_running hc]

end HostInterface

/-- Settles O54: a load keeps the stage, a request without a step too, and the first step of a running core starts the
run. -/
theorem hostMayLoadUntilTheFirstStep : Obligations.HostMayLoadUntilTheFirstStep := by
  intro text ws c hload
  refine ⟨⟨Loader.loadInto ws c.M, HostInterface.act_load_fresh hload c, ?_⟩, HostInterface.act_load_fresh hload _,
    fun st hst => HostInterface.act_runUntilHalt_zero hst c, fun hc a limit ha => ?_, fun d src => rfl⟩
  · exact Loader.loadInto_read_of_length_le (Loader.loadSource_length_le hload) c.M
  · rcases ha with rfl | rfl
    · exact HostInterface.act_step_stage_of_running hc
    · exact HostInterface.act_runUntilHalt_succ_stage_of_running hc limit

/-! ### Reset and the snapshot (R200, R210) -/

/-- Settles O1: whatever the state was, reset gives the state of creation, whose memory lists no cell. -/
theorem resetPutsEverythingToZero : Obligations.ResetPutsEverythingToZero := fun _ =>
  ⟨rfl, rfl, rfl, rfl, rfl, rfl, rfl, rfl, fun a _ => Memory.read_nil a, rfl, rfl, rfl⟩

theorem HostInterface.observe_memory_length (s : State) : (observe s).memory.length = 4096 := by
  simp [observe]

/-- Entry `a` of the snapshot's memory is cell `a` (R210). -/
theorem HostInterface.observe_memory_cell (s : State) {a : Nat} (ha : a < 4096) :
    (observe s).memory[a]? = some (s.M.read a) := by
  simp [observe, ha]

/-- Settles O51: the snapshot copies each field, and its memory is the list of the 4096 cells. -/
theorem observationShowsTheState : Obligations.ObservationShowsTheState := fun h =>
  ⟨rfl, rfl, rfl, rfl, rfl, rfl, rfl, rfl, rfl, rfl, HostInterface.observe_memory_length h.core,
    fun _ => HostInterface.observe_memory_cell h.core⟩

end Sys2Proof.Machine
end
